-- ==== Sys2Proof/Word.lean ====
section
/-! DEFINITION. The values the DPS150 frame codec computes with: the byte (spec R14), the word of the
command encoding (R72, 95_test_vectors.md part 3) and the form in which the outside presents an
operation or a frame. -/

namespace Sys2Proof

/-- A byte: an unsigned 8-bit integer (R14). -/
abbrev Byte := BitVec 8

/-- One word of the command encoding: the op select, a byte operand, or the length of a sequence
operand, which is a natural number "not confined to 8 bits" (R72). -/
abbrev CmdWord := Nat

/-- Four bytes the payload decoder reads as an IEEE-754 single; bits only, no arithmetic (R181). -/
abbrev FloatBits := BitVec 32

/-- What the decoder is given, whole (R72): the words of one command at the command interface
(R70, R71), or the bytes of one frame on the serial link (R60). The two are different interfaces, so
an op select and a direction marker never compete for the same bits. -/
inductive Presented where
  | command (words : List CmdWord)
  | wire (bytes : List Byte)
  deriving DecidableEq, Repr

/-- The sum of a byte sequence as a natural number, no wrap, 0 when empty (R15). -/
def byteSum (bs : List Byte) : Nat := (bs.map BitVec.toNat).sum

end Sys2Proof
end

