-- ==== Sys2Proof/Config.lean ====
section
/-! DEFINITION. The parameters of the block (spec R9 to R11), the constants of the wire format (R12),
and the one free value: the payload of the all-status request (R13, D19). -/

namespace Sys2Proof

/-- The block's fixed parameters. `capacity` is CAPACITY (R9); `recog` is RECOG, the set of recognised
inbound (marker, code) pairs (R11), a list in which only membership matters. -/
structure Config where
  capacity : Nat
  recog : List (Byte × Byte)
  deriving DecidableEq, Repr

/-- MAX_OCC = CAPACITY - 1: the largest occupied length (R10). -/
def Config.maxOcc (c : Config) : Nat := c.capacity - 1

/-- The spec's bound on CAPACITY (R9). -/
abbrev Config.Wf (c : Config) : Prop := 2 ≤ c.capacity

/-- The defaults of R9 and R11. -/
def Config.default : Config := { capacity := 8192, recog := [(0xF0#8, 0xA1#8)] }

/-- Length of the header prefix (R12). -/
def Config.hdr : Nat := 4

/-- Shortest frame, payload length 0 (R12). -/
def Config.minFrame : Nat := 5

/-- Longest frame, payload length 255 (R12). -/
def Config.maxFrame : Nat := 260

/-- Largest payload length (R12). -/
def Config.maxPayload : Nat := 255

/-- Outbound direction marker (R12, R61). -/
def Config.txMarker : Byte := 0xF1#8

/-- Inbound direction marker (R12, R61). -/
def Config.rxMarker : Byte := 0xF0#8

/-- Type code of the all-status request and its response, "GET-all" (R12, R62). -/
def Config.getAllType : Byte := 0xA1#8

/-- Type code the wire table gives as "a control command" (R62). -/
def Config.controlType : Byte := 0xC1#8

/-- Sub-code "all data" (R12, R63). -/
def Config.allDataSub : Byte := 255#8

/-- FREE VALUE (R13, D19, U18): the length of REQ_PAYLOAD, at most 255 because it is a byte. The spec
gives no value; nothing can evaluate it. Log entry 21. -/
opaque Config.reqPayloadLength : Byte

/-- FREE VALUE (R13, D19, U18): the bytes of REQ_PAYLOAD by index. Log entry 21. -/
opaque Config.reqPayloadByte : Nat → Byte

/-- REQ_PAYLOAD, the payload of the all-status request: some byte sequence of length at most 255
(R13, D19). -/
def Config.reqPayload : List Byte :=
  (List.range Config.reqPayloadLength.toNat).map Config.reqPayloadByte

end Sys2Proof
end

