-- ==== Sys2Proof/Syntax.lean ====
section
/-! DEFINITION. One constructor per row of spec/opcode_table.json: the five operations of the block
and the three reserved op codes (R71, R74), and the three named wire frames (R60, R79). -/

namespace Sys2Proof

/-- The rows of the opcode table. A command carries its operands whole (R72); a reserved op carries
whatever was presented with it, which is never looked at (R211). A wire frame carries the fields its
row leaves open (R60): sub-code, payload and the checksum byte as it stands on the wire, which may be
wrong (R75). -/
inductive Instr where
  | encode (marker typeCode subCode : Byte) (payload : List Byte)
  | scan (buffer : List Byte)
  | append (chunk : List Byte)
  | extract
  | clear
  | reserved5 (operands : List CmdWord)
  | reserved6 (operands : List CmdWord)
  | reserved7 (operands : List CmdWord)
  | frameRxGetAll (subCode : Byte) (payload : List Byte) (checksumByte : Byte)
  | frameTxGetAll (subCode : Byte) (payload : List Byte) (checksumByte : Byte)
  | frameTxControl (subCode : Byte) (payload : List Byte) (checksumByte : Byte)
  deriving DecidableEq, Repr

end Sys2Proof
end

