-- ==== Sys2Proof/WellFormed.lean ====
section
/-! DEFINITION. Which instructions the encodings of the spec can carry. A command's sequence operands
have any length (R72: "so that ENCODE can be given, and refuse, a payload longer than 255"); a wire
frame's payload length is one byte (R60, R64). -/

namespace Sys2Proof

/-- The one check: the payload of a wire frame is at most 255 bytes (R64). -/
def Instr.wellFormed : Instr → Bool
  | .encode _ _ _ _ => true
  | .scan _ => true
  | .append _ => true
  | .extract => true
  | .clear => true
  | .reserved5 _ => true
  | .reserved6 _ => true
  | .reserved7 _ => true
  | .frameRxGetAll _ payload _ => decide (payload.length ≤ 255)
  | .frameTxGetAll _ payload _ => decide (payload.length ≤ 255)
  | .frameTxControl _ payload _ => decide (payload.length ≤ 255)

end Sys2Proof
end

