-- ==== Sys2Proof/Decode.lean ====
section
/-! DEFINITION. The decoder and the encoder of the two interfaces: the command encoding (R71, R72 and
95_test_vectors.md part 3: op first, then the operand bytes, a sequence as its length and then its
bytes) and the wire frame (R60). Total; what it does not read it rejects by name. -/

namespace Sys2Proof

/-- Why a presentation is no instruction. Raised by `decode` alone. All are SAFE: nothing runs. -/
inductive Reject where
  /-- A command with no op word. -/
  | emptyCommand
  /-- An operand word is missing. -/
  | missingOperand
  /-- A byte operand is 256 or more (R14). -/
  | notAByte (w : CmdWord)
  /-- Words follow the last operand of an operation (R71 gives it no such input). -/
  | trailingOperands
  /-- Fewer than the four header bytes of a frame (R60). -/
  | shortFrame
  /-- The frame's length is not N + 5 (R60). -/
  | frameLength
  /-- The (marker, code) pair is none of the table's three wire rows; such bytes enter as received
  bytes, not as a named frame (R75, R79). -/
  | unnamedPair (marker typeCode : Byte)
  deriving DecidableEq, Repr

/-- Reads one byte operand. -/
def takeByte : List CmdWord → Except Reject (Byte × List CmdWord)
  | [] => .error .missingOperand
  | w :: rest => if w < 256 then .ok (BitVec.ofNat 8 w, rest) else .error (.notAByte w)

/-- Reads `n` byte operands. -/
def takeBytes : Nat → List CmdWord → Except Reject (List Byte × List CmdWord)
  | 0, ws => .ok ([], ws)
  | n + 1, ws =>
    match takeByte ws with
    | .error r => .error r
    | .ok (b, rest) =>
      match takeBytes n rest with
      | .error r => .error r
      | .ok (bs, rest') => .ok (b :: bs, rest')

/-- Reads a sequence operand, its length and then its bytes, which must end the command (R72, part 3
of 95_test_vectors.md). -/
def takeLastSeq : List CmdWord → Except Reject (List Byte)
  | [] => .error .missingOperand
  | n :: ws =>
    match takeBytes n ws with
    | .error r => .error r
    | .ok (bs, []) => .ok bs
    | .ok (_, _ :: _) => .error .trailingOperands

/-- The operands of ENCODE: marker, type_code, sub_code, payload (R90). -/
def decodeEncode (ws : List CmdWord) : Except Reject Instr :=
  match takeBytes 3 ws with
  | .error r => .error r
  | .ok ([m, t, s], rest) =>
    match takeLastSeq rest with
    | .error r => .error r
    | .ok p => .ok (.encode m t s p)
  | .ok (_, _) => .error .missingOperand

/-- An operation whose one operand is a sequence (R100, R120). -/
def decodeSeqOp (f : List Byte → Instr) (ws : List CmdWord) : Except Reject Instr :=
  match takeLastSeq ws with
  | .error r => .error r
  | .ok bs => .ok (f bs)

/-- An operation with no operand (R124, R140). -/
def decodeNullary (i : Instr) (ws : List CmdWord) : Except Reject Instr :=
  match ws with
  | [] => .ok i
  | _ :: _ => .error .trailingOperands

/-- The operation select: `op[2:0]`, the low three bits of the op word, mask 0x7 of the table (R71).
A reserved op is taken before any operand is looked at (R211). -/
def opSelect (w : CmdWord) : Nat := w % 8

/-- A command's words (R71). -/
def decodeCommand : List CmdWord → Except Reject Instr
  | [] => .error .emptyCommand
  | w :: ws =>
    match opSelect w with
    | 0 => decodeEncode ws
    | 1 => decodeSeqOp .scan ws
    | 2 => decodeSeqOp .append ws
    | 3 => decodeNullary .extract ws
    | 4 => decodeNullary .clear ws
    | 5 => .ok (.reserved5 ws)
    | 6 => .ok (.reserved6 ws)
    | _ => .ok (.reserved7 ws)

/-- The wire row of a (marker, type code) pair (R60, R79; the table's match values). -/
def namedFrame (marker typeCode subCode : Byte) (payload : List Byte) (checksumByte : Byte) :
    Except Reject Instr :=
  if marker = Config.rxMarker ∧ typeCode = Config.getAllType then
    .ok (.frameRxGetAll subCode payload checksumByte)
  else if marker = Config.txMarker ∧ typeCode = Config.getAllType then
    .ok (.frameTxGetAll subCode payload checksumByte)
  else if marker = Config.txMarker ∧ typeCode = Config.controlType then
    .ok (.frameTxControl subCode payload checksumByte)
  else .error (.unnamedPair marker typeCode)

/-- A frame's bytes, offset by offset (R60): marker, type code, sub-code, N, N payload bytes and the
checksum byte, N + 5 in all. The checksum is not judged here: every byte value is legal at every
offset (R75). -/
def decodeWire : List Byte → Except Reject Instr
  | m :: t :: s :: n :: body =>
    if body.length = n.toNat + 1 then
      namedFrame m t s (body.take n.toNat) (body.getD n.toNat 0#8)
    else .error .frameLength
  | _ => .error .shortFrame

/-- The decoder: total on whatever is presented. -/
def decode : Presented → Except Reject Instr
  | .command ws => decodeCommand ws
  | .wire bs => decodeWire bs

/-- A byte sequence as operand words: its length, then its bytes (part 3 of 95_test_vectors.md). -/
def seqWords (bs : List Byte) : List CmdWord := bs.length :: bs.map BitVec.toNat

/-- The bytes of a frame whose checksum byte is given (R60). -/
def wireBytes (marker typeCode subCode : Byte) (payload : List Byte) (checksumByte : Byte) :
    List Byte :=
  [marker, typeCode, subCode, BitVec.ofNat 8 payload.length] ++ payload ++ [checksumByte]

/-- The encoder: the words of a command, the bytes of a frame. -/
def encode : Instr → Presented
  | .encode m t s p => .command ([0, m.toNat, t.toNat, s.toNat] ++ seqWords p)
  | .scan b => .command (1 :: seqWords b)
  | .append c => .command (2 :: seqWords c)
  | .extract => .command [3]
  | .clear => .command [4]
  | .reserved5 ops => .command (5 :: ops)
  | .reserved6 ops => .command (6 :: ops)
  | .reserved7 ops => .command (7 :: ops)
  | .frameRxGetAll s p c => .wire (wireBytes Config.rxMarker Config.getAllType s p c)
  | .frameTxGetAll s p c => .wire (wireBytes Config.txMarker Config.getAllType s p c)
  | .frameTxControl s p c => .wire (wireBytes Config.txMarker Config.controlType s p c)

/-- The bits the opcode table fixes, read from a presentation as the table numbers them: `op[2:0]` of
a command's op word; the first two bytes of a frame, offset 0 in the high byte. -/
def selectBits : Presented → Option Nat
  | .command (w :: _) => some (opSelect w)
  | .wire (m :: t :: _) => some (m.toNat * 256 + t.toNat)
  | _ => none

/-- The "match" column of spec/opcode_table.json. -/
def tableMatch : Instr → Nat
  | .encode _ _ _ _ => 0x0
  | .scan _ => 0x1
  | .append _ => 0x2
  | .extract => 0x3
  | .clear => 0x4
  | .reserved5 _ => 0x5
  | .reserved6 _ => 0x6
  | .reserved7 _ => 0x7
  | .frameRxGetAll _ _ _ => 0xF0A1
  | .frameTxGetAll _ _ _ => 0xF1A1
  | .frameTxControl _ _ _ => 0xF1C1

/-- The words of a command whose op word is `w` and whose operand words are all zero: the table gives
a command no bits but `op[2:0]`. -/
def zeroOperands (w : CmdWord) : List CmdWord :=
  match opSelect w with
  | 0 => [w, 0, 0, 0, 0]
  | 1 => [w, 0]
  | 2 => [w, 0]
  | _ => [w]

/-- A table word laid out at the interface its row belongs to. A row of up to 8 bits is a command,
`w` its op word. A row of 16 bits is a frame head: one 16-bit word, stored high byte first because the
table puts "offset 0 in the high byte" (log entry 30), followed by sub-code 0, N = 0 and checksum 0. -/
def tablePresented (nbits w : Nat) : Presented :=
  if nbits ≤ 8 then .command (zeroOperands w)
  else .wire [BitVec.ofNat 8 (w / 256), BitVec.ofNat 8 w, 0#8, 0#8, 0#8]

/-- The instruction the decoder reads from a word of the opcode table. -/
def decodeTableWord (nbits w : Nat) : Option Instr :=
  match decode (tablePresented nbits w) with
  | .ok i => some i
  | .error _ => none

end Sys2Proof
end

