-- ==== Sys2Proof/Machine/State.lean ====
section
/-! DEFINITION. The state of the machine as plain data: the block's receive buffer and length (spec
R20, R21), its fixed parameters (R9 to R11), the host's session state (R150, R152), the transport's
two directions (R154, R164), and the model's records of operation results (R24, R256), consumer
events (R165) and what is presented next (R50). -/

namespace Sys2Proof.Machine

/-- The reason of InvalidFrame: one only, with the candidate's offset and both checksums (R105). -/
inductive InvalidReason where
  | checksumMismatch (offset : Nat) (expected actual : Byte)
  deriving DecidableEq, Repr

/-- The four results of SCAN (R100, R110). -/
inductive ScanResult where
  | noFrame
  | partialFrame
  | invalidFrame (reason : InvalidReason)
  | validFrame (typeCode subCode : Byte) (payload : List Byte) (consumedLength : Nat)
  deriving DecidableEq, Repr

/-- The four exceptional outcomes of the block and what each records (R200). They are results, not
transfers of control (R208). -/
inductive Exceptional where
  | encodeLengthViolation (n : Nat)
  | overflow
  | corrupt (expected actual : Byte)
  | opRefused (op : Nat)
  deriving DecidableEq, Repr

/-- The result of one operation (R71, R73); `raised` is an operation that ended with `raise` (R16). -/
inductive Result where
  | encoded (frame : List Byte)
  | scanned (r : ScanResult)
  | ok
  | empty
  | awaiting
  | frame (typeCode subCode : Byte) (payload : List Byte) (consumedLength : Nat)
  | raised (x : Exceptional)
  deriving DecidableEq, Repr

/-- The protection-state enum of the payload decoder (R183). -/
inductive ProtectionState where
  | none | ovp | ocp | opp | otp | lvp | rep
  | unknown (code : Byte)
  deriving DecidableEq, Repr

/-- The DeviceStatus record (R184), assembled from a sub-code 255 payload (R182). Floats are carried
as their 32 bits (R181). The fields R182 marks *inferred* are marked so here: log entry 23. -/
structure DeviceStatus where
  inputVoltage : FloatBits
  setVoltage : FloatBits
  /-- inferred offset -/
  setCurrent : FloatBits
  outputVoltage : FloatBits
  /-- inferred offset -/
  outputCurrent : FloatBits
  /-- inferred offset -/
  outputPower : FloatBits
  temperature : FloatBits
  /-- six pairs, stated start and stride; voltage first is inferred -/
  groups : List (FloatBits × FloatBits)
  /-- stated start of the thresholds; that OVP is the first is inferred -/
  ovp : FloatBits
  /-- inferred order -/
  ocp : FloatBits
  /-- inferred order -/
  opp : FloatBits
  /-- inferred order -/
  otp : FloatBits
  /-- inferred order -/
  lvp : FloatBits
  /-- inferred order inside 96-98 -/
  brightness : Byte
  /-- inferred order inside 96-98 -/
  volume : Byte
  /-- inferred order inside 96-98 -/
  meteringMode : Byte
  /-- inferred split of 99-107 -/
  outputCapacity : FloatBits
  /-- inferred split of 99-107 -/
  outputEnergy : FloatBits
  /-- inferred split of 99-107; 1 = on -/
  outputFlag : Byte
  protection : ProtectionState
  /-- the raw CC/CV byte: which value means which is not given (R184, N11) -/
  ccCvMode : Byte
  upperVoltage : FloatBits
  upperCurrent : FloatBits
  deriving DecidableEq, Repr

/-- What the payload decoder makes of a Frame (R180 to R187), a tagged union with an explicit Unknown
arm (R186, R187). -/
inductive DecodedStatus where
  /-- Sub-code 255 (R182, R184). -/
  | allData (status : DeviceStatus)
  /-- Sub-code 192: the input voltage (R185). -/
  | inputVoltage (value : FloatBits)
  /-- Sub-codes 195, 196, 219, 221 to 224: recognised, layout not given (R185, N13): the payload is
  carried raw, log entry 25. -/
  | narrower (subCode : Byte) (payload : List Byte)
  /-- A recognised code whose payload has not the length of its layout (N12, U13): no field is
  guessed, the payload is carried raw, log entry 24. -/
  | anomalous (subCode : Byte) (payload : List Byte)
  /-- A code outside the recognised set, with its raw payload (R186). -/
  | unknown (subCode : Byte) (payload : List Byte)
  deriving DecidableEq, Repr

/-- Which transport access failed hard (R158: "a read or write error"). -/
inductive IoReason where
  | readError
  | writeError
  deriving DecidableEq, Repr

/-- The consumer-facing events (R165, R210). -/
inductive Event where
  | statusUpdated (status : DecodedStatus)
  | connectionLost (reason : IoReason)
  | checksumError (expected actual : Byte)
  deriving DecidableEq, Repr

/-- The four states of the host (R150). -/
inductive HostPhase where
  | idle
  | awaitingRequest
  | awaitingResponse
  | faulted
  deriving DecidableEq, Repr

/-- The host's and the transport's free choices in one tick (R155 to R157): how many waiting bytes the
non-blocking read delivers at most (never more than MAX_OCC, R166); whether the tick's first Corrupt is surfaced ("may emit", R156);
and, for each further EXTRACT the host goes on with after a Corrupt, whether a Corrupt of that one is
surfaced. Log entry 16. -/
structure TickChoice where
  read : Nat
  report : Bool
  goOn : List Bool
  deriving DecidableEq, Repr

/-- What can happen at the host and the transport besides a command to the block (R150 to R165). -/
inductive HostEvent where
  /-- "successful transport open" (R153), or the explicit connect action after a fault (R159). -/
  | connect
  /-- The poll tick (R154, R155, R162). -/
  | tick (choice : TickChoice)
  /-- "a read or write error other than would block" (R158). -/
  | ioError (reason : IoReason)
  /-- A tick's read and APPEND as a step of their own (R155, R160: other operations "may come between
  any two operations of the poll cycle"). Log entry 33. -/
  | pollRead (read : Nat)
  /-- One EXTRACT of a tick as a step of its own (R155, R157), surfacing a Corrupt or not (R156). Log
  entry 33. -/
  | pollExtract (report : Bool)
  /-- SendTypedCommand with its payload as bytes, of any length (R78, R165). Log entry 34. -/
  | sendTyped (typeCode subCode : Byte) (payload : List Byte)
  /-- The command send with a float payload: four bytes (R160). -/
  | sendFloat (typeCode subCode : Byte) (value : FloatBits)
  /-- The command send with a byte payload: one byte (R160). -/
  | sendByte (typeCode subCode value : Byte)
  /-- The consumer's SendAllStatusRequest (R165). -/
  | sendStatusRequest
  /-- The connection closes in order (R142 (b)). -/
  | close
  /-- The device's bytes reach the transport, under no law (R4, U9). -/
  | received (bytes : List Byte)
  /-- The transport loses the oldest waiting bytes ("unreliable", R4). -/
  | lost (n : Nat)
  deriving DecidableEq, Repr

/-- One thing the outside presents: an operation or a frame, or a host event. -/
inductive Stimulus where
  | issue (p : Presented)
  | host (e : HostEvent)
  deriving DecidableEq, Repr

/-- The receive buffer's bytes: (index, byte) cells, indices strictly rising, none equal to the byte
an unlisted index reads as. -/
abbrev Mem := List Host.Cell

/-- What an unlisted index of the receive buffer reads as. The spec leaves the contents unspecified and
unobservable (R29, R30). DESIGN CHOICE, unsafe, log entry 3. -/
def Mem.unlisted : Byte := 0#8

/-- The canonical form of the receive buffer. -/
abbrev Mem.Wf (m : Mem) : Prop :=
  (m.map Prod.fst).Pairwise (· < ·) ∧ ∀ c ∈ m, c.2 ≠ Mem.unlisted

/-- The whole state. -/
structure State where
  /-- CAPACITY and RECOG (R9, R11): read by operations, written by none (R25, R28). -/
  cfg : Config
  /-- `rx_buf` (R20). -/
  rxBuf : Mem
  /-- `rx_len` (R21). -/
  rxLen : Nat
  /-- The model's record of operation results, oldest first (R24, R256). -/
  results : List Result
  /-- The host's state (R150). -/
  phase : HostPhase
  /-- PendingRequestFlag (R152). -/
  pendingRequest : Bool
  /-- Bytes waiting on the transport's read side (R154). -/
  incoming : List Byte
  /-- Bytes handed to the transport's write side, oldest first (R52, R154, R160). -/
  outgoing : List Byte
  /-- Events emitted to the consumer, oldest first (R165). -/
  events : List Event
  /-- What is presented next, in order (R50). -/
  pending : List Stimulus
  deriving DecidableEq, Repr

/-- The machine right after power-on (R30, R230, R231): `rx_len` 0, the host Idle with no request
outstanding, the parameters at the defaults of R9 and R11, nothing recorded and nothing presented. -/
def State.reset : State :=
  { cfg := Config.default, rxBuf := [], rxLen := 0, results := [], phase := .idle,
    pendingRequest := false, incoming := [], outgoing := [], events := [], pending := [] }

/-- Why the machine stops with a fault. -/
inductive Fault where
  /-- Raised by `State.memRead` and `State.memWrite` when the access leaves the range in which R16
  defines it. No state with `rxLen ≤ MAX_OCC` reaches it. SAFE: the model stops. Log entry 13. -/
  | outsideBuffer (limit : Nat)
  deriving DecidableEq, Repr

/-- Why the machine gives no meaning. -/
inductive Refusal where
  /-- Raised by `exec` for an instruction that has no meaning yet. SAFE. -/
  | notModelled (mnemonic : String)
  /-- Raised by `hostConnect` while a connection is open: "Single active session per process" (R151),
  no transition is given. SAFE. Log entry 18. -/
  | alreadyConnected
  /-- Raised by the command sends and by `hostClose` without a connection: they are available "while
  connected" (R160). SAFE. Log entry 18. -/
  | notConnected
  deriving DecidableEq, Repr

end Sys2Proof.Machine
end

