-- ==== Sys2Proof/Machine/Flags.lean ====
section
/-! DEFINITION. The block has no flags (spec R24). What it computes besides bytes moved is the 8-bit
additive checksum (R65, R66) and, where numbers are wanted, the codes of results and causes (R73,
R200). -/

namespace Sys2Proof.Machine

/-- The checksum: `(sub_code + N + sum(payload)) mod 256`, over unsigned bytes (R65). Marker and type
code are not in it. -/
def checksum (subCode n : Byte) (payload : List Byte) : Byte :=
  BitVec.ofNat 8 ((subCode.toNat + n.toNat + byteSum payload) % 256)

/-- The checksum with an 8-bit accumulator that wraps on every addition (R66). -/
def checksumStepwise (subCode n : Byte) (payload : List Byte) : Byte :=
  payload.foldl (· + ·) (subCode + n)

/-- The code of a cause (R200). -/
def Exceptional.code : Exceptional → Nat
  | .encodeLengthViolation _ => 1
  | .overflow => 2
  | .corrupt _ _ => 3
  | .opRefused _ => 4

/-- The code of a SCAN result (R73). -/
def ScanResult.code : ScanResult → Nat
  | .noFrame => 0
  | .partialFrame => 1
  | .invalidFrame _ => 2
  | .validFrame _ _ _ _ => 3

/-- The code of a result, in the numbering of its own operation (R73). -/
def Result.code : Result → Nat
  | .encoded _ => 0
  | .raised (.encodeLengthViolation _) => 1
  | .scanned r => r.code
  | .ok => 0
  | .raised .overflow => 1
  | .empty => 0
  | .awaiting => 1
  | .frame _ _ _ _ => 2
  | .raised (.corrupt _ _) => 3
  | .raised (.opRefused _) => 7

end Sys2Proof.Machine
end

