-- ==== Sys2Proof/Machine/Operands.lean ====
section
/-! DEFINITION. The operand forms of the block: a byte sequence read as a frame (spec R60, R69) and the
search for the first candidate (R100 to R108). Pure functions of the bytes and of RECOG. -/

namespace Sys2Proof.Machine

/-- The frame ENCODE builds (R60, R90), for a payload of at most 255 bytes. -/
def buildFrame (marker typeCode subCode : Byte) (payload : List Byte) : List Byte :=
  let n := BitVec.ofNat 8 payload.length
  [marker, typeCode, subCode, n] ++ payload ++ [checksum subCode n payload]

/-- A float operand of a command send: its four bytes, least significant first (R160, R181). -/
def floatBytes (value : FloatBits) : List Byte :=
  [value.extractLsb' 0 8, value.extractLsb' 8 8, value.extractLsb' 16 8, value.extractLsb' 24 8]

/-- A candidate at offset `i` judged by what follows its two bytes (R103 to R106): header complete,
body complete, checksum, in that order (R211). `rest` is the sequence from offset `i + 2` on. -/
def classify (i : Nat) (typeCode : Byte) (rest : List Byte) : ScanResult :=
  match rest with
  | subCode :: n :: body =>
    if body.length < n.toNat + 1 then .partialFrame
    else
      let payload := body.take n.toNat
      let expected := checksum subCode n payload
      let actual := body.getD n.toNat 0#8
      if expected = actual then .validFrame typeCode subCode payload (i + n.toNat + 5)
      else .invalidFrame (.checksumMismatch i expected actual)
  | _ => .partialFrame

/-- The search (R100 to R102): offsets in increasing order, the first pair in RECOG decides; with
fewer than two bytes left there is no candidate (R107, R108). `i` is the offset of the sequence's
first element. -/
def scanFrom (recog : List (Byte × Byte)) (i : Nat) : List Byte → ScanResult
  | m :: t :: rest =>
    if (m, t) ∈ recog then classify i t rest
    else scanFrom recog (i + 1) (t :: rest)
  | _ => .noFrame

/-- SCAN's function: every search starts from offset 0 and keeps nothing (R100). -/
def scanBytes (recog : List (Byte × Byte)) (b : List Byte) : ScanResult :=
  scanFrom recog 0 b

end Sys2Proof.Machine
end

