-- ==== Sys2Proof/Machine/Ops.lean ====
section
/-! DEFINITION. The named operations over the receive buffer and the records: MemRead and MemWrite
(spec R16), compaction (R129), emptying (R140), ending an operation with a result or an exceptional
outcome (R16, R208), and the host's access to the transport and the consumer. -/

namespace Sys2Proof.Machine

/-- The byte at an index of the receive buffer. -/
def Mem.byteAt : Mem → Nat → Byte
  | [], _ => Mem.unlisted
  | (k, v) :: m, a => if k = a then v else Mem.byteAt m a

/-- Stores one byte, keeping the canonical form. -/
def Mem.setByte : Mem → Nat → Byte → Mem
  | [], a, b => if b = Mem.unlisted then [] else [(a, b)]
  | (k, v) :: m, a, b =>
    if a < k then (if b = Mem.unlisted then (k, v) :: m else (a, b) :: (k, v) :: m)
    else if a = k then (if b = Mem.unlisted then m else (a, b) :: m)
    else (k, v) :: Mem.setByte m a b

/-- The `n` bytes from index `a` on. -/
def Mem.readSpan (m : Mem) (a : Nat) : Nat → List Byte
  | 0 => []
  | n + 1 => Mem.byteAt m a :: Mem.readSpan m (a + 1) n

/-- Stores a byte sequence from index `a` on, the first element lowest (R42). -/
def Mem.writeSpan (m : Mem) (a : Nat) : List Byte → Mem
  | [] => m
  | b :: bs => Mem.writeSpan (Mem.setByte m a b) (a + 1) bs

/-- `MemRead(addr, n)`, defined only when `addr + n <= rx_len` (R16) and, since indices end at
CAPACITY - 1 (R40), only inside the array. -/
def State.memRead (s : State) (addr n : Nat) : Except Fault (List Byte) :=
  if addr + n ≤ s.rxLen ∧ addr + n ≤ s.cfg.capacity then .ok (Mem.readSpan s.rxBuf addr n)
  else .error (.outsideBuffer (addr + n))

/-- `MemWrite(addr, n, v)`, defined only when `addr + n <= CAPACITY` (R16). -/
def State.memWrite (s : State) (addr : Nat) (v : List Byte) : Except Fault State :=
  if addr + v.length ≤ s.cfg.capacity then
    .ok { s with rxBuf := Mem.writeSpan s.rxBuf addr v }
  else .error (.outsideBuffer (addr + v.length))

/-- `rx_len <- v`. -/
def State.setRxLen (s : State) (v : Nat) : State := { s with rxLen := v }

/-- The occupied part of the receive buffer, `rx_buf[0 .. rx_len-1]` (R20, R125). -/
def State.contents (s : State) : List Byte := Mem.readSpan s.rxBuf 0 s.rxLen

/-- The receive buffer reset to empty: `rx_len <- 0` and nothing else (R140, R230). -/
def State.emptyBuffer (s : State) : State := s.setRxLen 0

/-- `compact(k)`: the first `k` bytes are removed and the rest shifted down (R129). -/
def State.compact (s : State) (k : Nat) : Except Fault State :=
  match s.memRead k (s.rxLen - k) with
  | .error f => .error f
  | .ok rest =>
    match s.memWrite 0 rest with
    | .error f => .error f
    | .ok t => .ok (t.setRxLen (s.rxLen - k))

/-- `return r`: the result is handed to the host whole; the model records it (R24, R72). -/
def State.record (s : State) (r : Result) : State := { s with results := s.results ++ [r] }

/-- `raise x`: the one way an operation ends with an exceptional outcome. It is a returned value,
recorded like any other result after the state change its rule gives; control goes nowhere, nothing
is saved, stacked or masked, and the block is ready for the next operation at once (R208, R212,
R213). There is no return operation to go with it. -/
def State.raise (s : State) (x : Exceptional) : State := s.record (.raised x)

/-- The host hands bytes to the transport's write side, in order and contiguous (R52, R247). The write
side takes them all at once and never would block. DESIGN CHOICE, log entry 35. -/
def State.transmit (s : State) (bytes : List Byte) : State :=
  { s with outgoing := s.outgoing ++ bytes }

/-- Bytes reach the transport's read side, where they wait (R154). -/
def State.arrive (s : State) (bytes : List Byte) : State :=
  { s with incoming := s.incoming ++ bytes }

/-- The oldest `n` waiting bytes leave the transport's read side. -/
def State.dropIncoming (s : State) (n : Nat) : State :=
  { s with incoming := s.incoming.drop n }

/-- The host emits a consumer event (R165, R210). -/
def State.emit (s : State) (e : Event) : State := { s with events := s.events ++ [e] }

/-- The host's state and PendingRequestFlag together. -/
def State.setHost (s : State) (phase : HostPhase) (flag : Bool) : State :=
  { s with phase := phase, pendingRequest := flag }

/-- What is presented next. -/
def State.setPending (s : State) (p : List Stimulus) : State := { s with pending := p }

end Sys2Proof.Machine
end

