-- ==== Sys2Proof/Machine/Assembler.lean ====
section
/-! DEFINITION. ReceiveAssembler: APPEND (spec R120 to R123) and EXTRACT (R124 to R133), as operations
that answer the next state and the result, and as meanings. -/

namespace Sys2Proof.Machine

/-- APPEND: all of the chunk or none of it (R120). Fits: stored in order behind what is there (R121).
Does not fit: the buffer is reset to empty, the chunk is dropped, Overflow (R122). -/
def State.appendOp (s : State) (chunk : List Byte) : Except Fault (State × Result) :=
  if s.rxLen + chunk.length ≤ s.cfg.maxOcc then
    match s.memWrite s.rxLen chunk with
    | .error f => .error f
    | .ok t => .ok ((t.setRxLen (s.rxLen + chunk.length)).record .ok, .ok)
  else .ok (s.emptyBuffer.raise .overflow, .raised .overflow)

/-- EXTRACT: one SCAN of the occupied bytes (R125). Valid: the skipped bytes and the frame are removed
(R126). Invalid: the skipped bytes and the marker byte are removed (R127). Partial or none: nothing
changes (R128). -/
def State.extractOp (s : State) : Except Fault (State × Result) :=
  match s.memRead 0 s.rxLen with
  | .error f => .error f
  | .ok b =>
    match scanBytes s.cfg.recog b with
    | .validFrame t sub p c =>
      match s.compact c with
      | .error f => .error f
      | .ok s' => .ok (s'.record (.frame t sub p c), .frame t sub p c)
    | .invalidFrame (.checksumMismatch i e a) =>
      match s.compact (i + 1) with
      | .error f => .error f
      | .ok s' => .ok (s'.raise (.corrupt e a), .raised (.corrupt e a))
    | .partialFrame => .ok (s.record .awaiting, .awaiting)
    | .noFrame => .ok (s.record .empty, .empty)

/-- APPEND (op 2). -/
def execAppend (chunk : List Byte) (s : State) : Host.Outcome State Fault Refusal :=
  match s.appendOp chunk with
  | .error f => .fault f
  | .ok (t, _) => .next t

/-- EXTRACT (op 3). The block's operation only: PendingRequestFlag and the consumer's events are the
host's (R27, R210), and a Frame of an EXTRACT presented as a command changes neither. DESIGN CHOICE, log
entry 31. -/
def execExtract (s : State) : Host.Outcome State Fault Refusal :=
  match s.extractOp with
  | .error f => .fault f
  | .ok (t, _) => .next t

end Sys2Proof.Machine
end

