-- ==== Sys2Proof/Machine/Codec.lean ====
section
/-! DEFINITION. FrameCodec: ENCODE (spec R90 to R94) and SCAN (R100 to R110). Neither reads nor writes
the receive state (R51); SCAN reads the parameter RECOG. -/

namespace Sys2Proof.Machine

/-- ENCODE's function: the length test first (R211), never a truncated frame (R92). -/
def encodeFrame (marker typeCode subCode : Byte) (payload : List Byte) :
    Except Exceptional (List Byte) :=
  if 255 < payload.length then .error (.encodeLengthViolation payload.length)
  else .ok (buildFrame marker typeCode subCode payload)

/-- ENCODE as an operation on the state, with what it hands the host (R90). -/
def State.encodeOp (s : State) (marker typeCode subCode : Byte) (payload : List Byte) :
    State × Option (List Byte) :=
  match encodeFrame marker typeCode subCode payload with
  | .ok f => (s.record (.encoded f), some f)
  | .error x => (s.raise x, none)

/-- ENCODE (op 0), R90 to R94. -/
def execEncode (marker typeCode subCode : Byte) (payload : List Byte) (s : State) :
    Host.Outcome State Fault Refusal :=
  .next (s.encodeOp marker typeCode subCode payload).1

/-- SCAN (op 1), R100 to R110: on the supplied sequence, not on `rx_buf` (R40). -/
def execScan (buffer : List Byte) (s : State) : Host.Outcome State Fault Refusal :=
  .next (s.record (.scanned (scanBytes s.cfg.recog buffer)))

end Sys2Proof.Machine
end

