-- ==== Sys2Proof/Machine/Reserved.lean ====
section
/-! DEFINITION. The reserved operation codes (spec R74, R204): the block returns OpRefused(op), looks
at no operand (R211) and changes no state. The refusal is the result the block returns; it does not
end the run (R213, R256). Log entry 11. -/

namespace Sys2Proof.Machine

/-- RESERVED5. -/
def execReserved5 (_operands : List CmdWord) (s : State) : Host.Outcome State Fault Refusal :=
  .next (s.raise (.opRefused 5))

/-- RESERVED6. -/
def execReserved6 (_operands : List CmdWord) (s : State) : Host.Outcome State Fault Refusal :=
  .next (s.raise (.opRefused 6))

/-- RESERVED7. -/
def execReserved7 (_operands : List CmdWord) (s : State) : Host.Outcome State Fault Refusal :=
  .next (s.raise (.opRefused 7))

end Sys2Proof.Machine
end

