-- ==== Sys2Proof/Machine/SessionReset.lean ====
section
/-! DEFINITION. CLEAR (spec R140, R141): the session reset of the receive state. -/

namespace Sys2Proof.Machine

/-- CLEAR as an operation on the state: cannot fail (R140). -/
def State.clearOp (s : State) : State := s.emptyBuffer.record .ok

/-- CLEAR (op 4). -/
def execClear (s : State) : Host.Outcome State Fault Refusal := .next s.clearOp

end Sys2Proof.Machine
end

