-- ==== Sys2Proof/Machine/Wire.lean ====
section
/-! DEFINITION. The wire (spec R60, R75, R79): one frame passing on the serial link. The
direction marker says which way (R61): an inbound frame's bytes reach the transport's read side, from
where the host takes them in chunks of its own (R4, R154); an outbound frame's bytes are on the write
side (R52). The block itself sees neither until the host issues an operation (R209). Log entry 8. -/

namespace Sys2Proof.Machine

/-- Bytes on the link that are none of the table's named frames: another (marker, code) pair, a part of
a frame, noise. There is no illegal encoding on the wire (R75). What begins with the outbound marker
passes outward, anything else inward (R61; R4: the received stream is under no law). DESIGN CHOICE, log
entry 9. -/
def State.carry (s : State) (bytes : List Byte) : State :=
  if bytes.head? = some Config.txMarker then s.transmit bytes else s.arrive bytes

/-- What is presented and is no instruction. Words that are no command issue no operation, and the block
"does something only when the host issues an operation" (R209, R70): nothing happens. DEDUCED, log entry
7. Bytes on the link pass. -/
def State.passBy (s : State) (p : Presented) : State :=
  match p with
  | .command _ => s
  | .wire bytes => s.carry bytes

/-- FRAME.RX.GETALL: `F0 A1`, from the device to the host (R61). -/
def execFrameRxGetAll (subCode : Byte) (payload : List Byte) (checksumByte : Byte) (s : State) :
    Host.Outcome State Fault Refusal :=
  .next (s.arrive (wireBytes Config.rxMarker Config.getAllType subCode payload checksumByte))

/-- FRAME.TX.GETALL: `F1 A1`, from the host to the device (R61). -/
def execFrameTxGetAll (subCode : Byte) (payload : List Byte) (checksumByte : Byte) (s : State) :
    Host.Outcome State Fault Refusal :=
  .next (s.transmit (wireBytes Config.txMarker Config.getAllType subCode payload checksumByte))

/-- FRAME.TX.CONTROL: `F1 C1`, from the host to the device (R61, R62). -/
def execFrameTxControl (subCode : Byte) (payload : List Byte) (checksumByte : Byte) (s : State) :
    Host.Outcome State Fault Refusal :=
  .next (s.transmit (wireBytes Config.txMarker Config.controlType subCode payload checksumByte))

end Sys2Proof.Machine
end

