-- ==== Sys2Proof/Machine/Dispatch.lean ====
section
/-! DEFINITION. The meaning of every instruction, one arm per row of the opcode table. -/

namespace Sys2Proof.Machine

def exec (i : Instr) (s : State) : Host.Outcome State Fault Refusal :=
  match i with
  | .encode marker typeCode subCode payload => Sys2Proof.Machine.execEncode marker typeCode subCode payload s
  | .scan buffer => Sys2Proof.Machine.execScan buffer s
  | .append chunk => Sys2Proof.Machine.execAppend chunk s
  | .extract => Sys2Proof.Machine.execExtract s
  | .clear => Sys2Proof.Machine.execClear s
  | .reserved5 operands => Sys2Proof.Machine.execReserved5 operands s
  | .reserved6 operands => Sys2Proof.Machine.execReserved6 operands s
  | .reserved7 operands => Sys2Proof.Machine.execReserved7 operands s
  | .frameRxGetAll subCode payload checksumByte => Sys2Proof.Machine.execFrameRxGetAll subCode payload checksumByte s
  | .frameTxGetAll subCode payload checksumByte => Sys2Proof.Machine.execFrameTxGetAll subCode payload checksumByte s
  | .frameTxControl subCode payload checksumByte => Sys2Proof.Machine.execFrameTxControl subCode payload checksumByte s

end Sys2Proof.Machine
end

