-- ==== Sys2Proof/Machine/StatusDecoder.lean ====
section
/-! DEFINITION. StatusDecoder (spec R180 to R188): what the host makes of a Frame's payload. Pure; the
dispatch key is the sub-code (R180, C3). Offsets R182 marks *inferred* are DEDUCED here, log entry 23:
no statement rests on them. -/

namespace Sys2Proof.Machine

/-- The byte at a payload offset. -/
def payloadByte (p : List Byte) (k : Nat) : Byte := p.getD k 0#8

/-- A float at payload offset `k`: four bytes, least significant first (R181, D26). -/
def payloadFloat (p : List Byte) (k : Nat) : FloatBits :=
  payloadByte p (k + 3) ++ payloadByte p (k + 2) ++ payloadByte p (k + 1) ++ payloadByte p k

/-- A text field at payload offset `k` of `width` bytes, at most 32: its characters up to the first null
of the padding (R181). No rule says which sub-code carries one (R185, N13): no layout uses it, log entry
25. -/
def payloadText (p : List Byte) (k width : Nat) : List Byte :=
  ((p.drop k).take (min width 32)).takeWhile (· != 0#8)

/-- The protection-state code (R183): outside 0 to 6 an explicit UNKNOWN with the raw code. That 6 is
REP is stated; that 0 to 5 follow the list order is inferred, log entry 23. -/
def protectionOf (code : Byte) : ProtectionState :=
  match code.toNat with
  | 0 => .none
  | 1 => .ovp
  | 2 => .ocp
  | 3 => .opp
  | 4 => .otp
  | 5 => .lvp
  | 6 => .rep
  | _ => .unknown code

/-- The fewest bytes of a sub-code 255 payload: the last field ends at offset 118 (R182). -/
def allDataLength : Nat := 119

/-- The sub-code 255 layout (R182). -/
def allDataStatus (p : List Byte) : DeviceStatus :=
  { inputVoltage := payloadFloat p 0
    setVoltage := payloadFloat p 4
    setCurrent := payloadFloat p 8
    outputVoltage := payloadFloat p 12
    outputCurrent := payloadFloat p 16
    outputPower := payloadFloat p 20
    temperature := payloadFloat p 24
    groups := (List.range 6).map fun k => (payloadFloat p (28 + 8 * k), payloadFloat p (32 + 8 * k))
    ovp := payloadFloat p 76
    ocp := payloadFloat p 80
    opp := payloadFloat p 84
    otp := payloadFloat p 88
    lvp := payloadFloat p 92
    brightness := payloadByte p 96
    volume := payloadByte p 97
    meteringMode := payloadByte p 98
    outputCapacity := payloadFloat p 99
    outputEnergy := payloadFloat p 103
    outputFlag := payloadByte p 107
    protection := protectionOf (payloadByte p 108)
    ccCvMode := payloadByte p 109
    upperVoltage := payloadFloat p 111
    upperCurrent := payloadFloat p 115 }

/-- The output on/off flag read as "1 = on" (R182, R188). -/
def outputOn (d : DeviceStatus) : Bool := d.outputFlag == 1#8

/-- The recognised codes whose layout the spec does not give (R180, R185, N13). -/
def narrowerCodes : List Byte := [195#8, 196#8, 219#8, 221#8, 222#8, 223#8, 224#8]

/-- The decoder (R180 to R187). Never fails: a payload it cannot lay out, and a code it does not know,
become named variants that carry the raw payload. -/
def decodeStatus (subCode : Byte) (payload : List Byte) : DecodedStatus :=
  if subCode = Config.allDataSub then
    if payload.length < allDataLength then .anomalous subCode payload
    else .allData (allDataStatus payload)
  else if subCode = 192#8 then
    if payload.length = 4 then .inputVoltage (payloadFloat payload 0)
    else .anomalous subCode payload
  else if subCode ∈ narrowerCodes then .narrower subCode payload
  else .unknown subCode payload

end Sys2Proof.Machine
end

