-- ==== Sys2Proof/Machine/Session.lean ====
section
/-! DEFINITION. The host contract (spec R150 to R166): PollCycle's four states, the pending-request
flag, the command sends and the consumer events, all through the block's own operations. -/

namespace Sys2Proof.Machine

/-- A frame goes out: ENCODE, and its bytes to the transport's write side whole (R154, R160, R52). A
refused ENCODE sends nothing (R92). A write that would block is no error (R158, R164), and what becomes
of its frame and of the flag is not said: here no write would block. DESIGN CHOICE, log entry 35. -/
def State.sendFrame (s : State) (typeCode subCode : Byte) (payload : List Byte) : State :=
  match s.encodeOp Config.txMarker typeCode subCode payload with
  | (t, some f) => t.transmit f
  | (t, none) => t

/-- The all-status request with a given REQ_PAYLOAD: type code fixed, sub-code 255; the flag is set and
the host awaits the response (R154, R78). -/
def State.sendRequest (s : State) (reqPayload : List Byte) : State :=
  (s.sendFrame Config.getAllType Config.allDataSub reqPayload).setHost .awaitingResponse true

/-- A Frame result in AwaitingResponse: decode, emit, clear the flag, back to AwaitingRequest (R155).
Every Frame clears the flag, whatever its sub-code (R161, D25). -/
def State.deliver (s : State) (subCode : Byte) (payload : List Byte) : State :=
  (s.emit (.statusUpdated (decodeStatus subCode payload))).setHost .awaitingRequest false

/-- A Corrupt in a tick is surfaced to the consumer or not ("may emit", R156; R210). -/
def State.surface (s : State) (report : Bool) (expected actual : Byte) : State :=
  if report then s.emit (.checksumError expected actual) else s

/-- What the host does with one EXTRACT of a tick (R155, R156): a Frame is delivered; Awaiting and Empty
end the tick; a Corrupt is surfaced or not, and `next` says how the tick goes on. -/
def afterExtract (x : Except Fault (State × Result)) (report : Bool)
    (next : State → Host.Outcome State Fault Refusal) : Host.Outcome State Fault Refusal :=
  match x with
  | .error f => .fault f
  | .ok (t, .frame _ sub p _) => .next (t.deliver sub p)
  | .ok (t, .raised (.corrupt e a)) => next (t.surface report e a)
  | .ok (t, _) => .next t

/-- The EXTRACTs of one tick (R157): one, and after each Corrupt one more while the tick's free choices
say so. -/
def pollExtract (report : Bool) : List Bool → State → Host.Outcome State Fault Refusal
  | [], s => afterExtract s.extractOp report .next
  | again :: more, s => afterExtract s.extractOp report (pollExtract again more)

/-- How many bytes one read hands to one APPEND: the host splits what is longer than MAX_OCC (R166,
R123 (c), R246); the rest waits in the transport for the next read. Log entry 33. -/
def State.readSize (s : State) (read : Nat) : Nat := min read s.cfg.maxOcc

/-- The first half of a tick in AwaitingResponse (R155): a non-blocking read of some waiting bytes,
possibly none, and APPEND with them. -/
def State.readAppend (s : State) (read : Nat) : Except Fault (State × Result) :=
  (s.dropIncoming (s.readSize read)).appendOp (s.incoming.take (s.readSize read))

/-- A tick in AwaitingResponse (R155): read, APPEND, then EXTRACT. After an Overflow the host stays
where it is (R156, D23) and goes on to EXTRACT (DEDUCED, log entry 17); the consumer is told nothing of
the Overflow, whose surfacing N10 leaves to the host (DESIGN CHOICE, log entry 36). -/
def pollResponse (c : TickChoice) (s : State) : Host.Outcome State Fault Refusal :=
  match s.readAppend c.read with
  | .error f => .fault f
  | .ok (t, _) => pollExtract c.report c.goOn t

/-- The tick (R154, R155). Without a connection no transition is listed: nothing happens (log entry
15). -/
def hostTick (c : TickChoice) (s : State) : Host.Outcome State Fault Refusal :=
  match s.phase with
  | .idle => .next s
  | .faulted => .next s
  | .awaitingRequest => .next (s.sendRequest Config.reqPayload)
  | .awaitingResponse => pollResponse c s

/-- A tick's read and APPEND alone. The host reads in AwaitingResponse only (R154, D22). Log
entry 33. An Overflow is not surfaced to the consumer. DESIGN CHOICE, log entry 36. -/
def hostPollRead (read : Nat) (s : State) : Host.Outcome State Fault Refusal :=
  match s.phase with
  | .idle => .next s
  | .faulted => .next s
  | .awaitingRequest => .next s
  | .awaitingResponse =>
    match s.readAppend read with
    | .error f => .fault f
    | .ok (t, _) => .next t

/-- One EXTRACT of a tick alone; after a Frame the tick's EXTRACTs are over (R157). Log entry 33. -/
def hostPollExtract (report : Bool) (s : State) : Host.Outcome State Fault Refusal :=
  match s.phase with
  | .idle => .next s
  | .faulted => .next s
  | .awaitingRequest => .next s
  | .awaitingResponse => pollExtract report [] s

/-- Transport open (R153), also the explicit connect action after a fault (R159): CLEAR, flag false. -/
def hostConnect (s : State) : Host.Outcome State Fault Refusal :=
  match s.phase with
  | .idle => .next (s.clearOp.setHost .awaitingRequest false)
  | .faulted => .next (s.clearOp.setHost .awaitingRequest false)
  | .awaitingRequest => .refused .alreadyConnected
  | .awaitingResponse => .refused .alreadyConnected

/-- A hard I/O error (R158): CLEAR, flag cleared, Faulted, one ConnectionLost. In Faulted the connection
is already torn down: "exactly once per fault", no second notification (log entry 20). The error is an
event of its own, never inside a send: a send is whole or not begun. DESIGN CHOICE, log entry 32. -/
def hostIoError (r : IoReason) (s : State) : Host.Outcome State Fault Refusal :=
  match s.phase with
  | .faulted => .next (s.clearOp.setHost .faulted false)
  | .idle => .next ((s.clearOp.setHost .faulted false).emit (.connectionLost r))
  | .awaitingRequest => .next ((s.clearOp.setHost .faulted false).emit (.connectionLost r))
  | .awaitingResponse => .next ((s.clearOp.setHost .faulted false).emit (.connectionLost r))

/-- SendTypedCommand (R160): fire and forget, the flag neither set nor tested. -/
def hostSendTyped (typeCode subCode : Byte) (payload : List Byte) (s : State) :
    Host.Outcome State Fault Refusal :=
  match s.phase with
  | .awaitingRequest => .next (s.sendFrame typeCode subCode payload)
  | .awaitingResponse => .next (s.sendFrame typeCode subCode payload)
  | .idle => .refused .notConnected
  | .faulted => .refused .notConnected

/-- The command send with a float payload (R160): four bytes, least significant first (R181). -/
def hostSendFloat (typeCode subCode : Byte) (value : FloatBits) (s : State) :
    Host.Outcome State Fault Refusal :=
  hostSendTyped typeCode subCode (floatBytes value) s

/-- The command send with a byte payload (R160). -/
def hostSendByte (typeCode subCode value : Byte) (s : State) : Host.Outcome State Fault Refusal :=
  hostSendTyped typeCode subCode [value] s

/-- SendAllStatusRequest from the consumer (R165): the tick's request, and none while one is
outstanding (R156, R161). Log entry 28. -/
def hostSendStatusRequest (s : State) : Host.Outcome State Fault Refusal :=
  match s.phase with
  | .awaitingRequest => .next (s.sendRequest Config.reqPayload)
  | .awaitingResponse => .next s
  | .idle => .refused .notConnected
  | .faulted => .refused .notConnected

/-- The connection closes (R142 (b), R31): CLEAR, flag cleared. The state after it is the one with "no
connection", Idle (R150; log entry 19). -/
def hostClose (s : State) : Host.Outcome State Fault Refusal :=
  match s.phase with
  | .awaitingRequest => .next (s.clearOp.setHost .idle false)
  | .awaitingResponse => .next (s.clearOp.setHost .idle false)
  | .idle => .refused .notConnected
  | .faulted => .refused .notConnected

/-- A host or transport event, run to completion (R162). -/
def hostStep (e : HostEvent) (s : State) : Host.Outcome State Fault Refusal :=
  match e with
  | .connect => hostConnect s
  | .tick c => hostTick c s
  | .ioError r => hostIoError r s
  | .pollRead n => hostPollRead n s
  | .pollExtract report => hostPollExtract report s
  | .sendTyped t sub p => hostSendTyped t sub p s
  | .sendFloat t sub v => hostSendFloat t sub v s
  | .sendByte t sub v => hostSendByte t sub v s
  | .sendStatusRequest => hostSendStatusRequest s
  | .close => hostClose s
  | .received bytes => .next (s.arrive bytes)
  | .lost n => .next (s.dropIncoming n)

end Sys2Proof.Machine
end

