-- ==== Sys2Proof/Machine/Step.lean ====
section
/-! DEFINITION. One step: the next thing presented, whole (spec R46, R50). The block fetches nothing
(R23): the outside presents, and with nothing presented nothing happens (R209, R231). -/

namespace Sys2Proof.Machine

/-- One step. What is presented first is taken from the queue; an operation or a frame is decoded and
executed, what is no instruction passes by, a host event is run. Log entry 10. An operation presented as
a command is the block's alone, an EXTRACT in AwaitingResponse too: the host's session machine acts on
the results of its own poll (`tick`, `pollExtract`), not on this one's. DESIGN CHOICE, log entry 31. -/
def step (s : State) : Host.Outcome State Fault Refusal :=
  match s.pending with
  | [] => .next s
  | .issue p :: rest =>
    match decode p with
    | .ok i => exec i (s.setPending rest)
    | .error _ => .next ((s.setPending rest).passBy p)
  | .host e :: rest => hostStep e (s.setPending rest)

/-- The state in which a word of the opcode table is what is presented next (log entry 10). -/
def State.withFetchWord (s : State) (nbits w : Nat) : State :=
  s.setPending (.issue (tablePresented nbits w) :: s.pending)

end Sys2Proof.Machine
end

