-- ==== Sys2Proof/Machine/Pseudo.lean ====
section
/-! DEFINITION. The host's pseudo-operations over the block (spec R78): DRAIN and FEED.
SendAllStatusRequest and SendTypedCommand are host events, in Session. -/

namespace Sys2Proof.Machine

/-- Whether DRAIN stops at this result: Awaiting or Empty (R78, R130). -/
def Result.stopsDrain : Result → Bool
  | .awaiting => true
  | .empty => true
  | .encoded _ => false
  | .scanned _ => false
  | .ok => false
  | .frame _ _ _ _ => false
  | .raised _ => false

/-- Whether a result is a Frame or a Corrupt, the results R131 (c) compares. -/
def Result.isDelivery : Result → Bool
  | .frame _ _ _ _ => true
  | .raised (.corrupt _ _) => true
  | .raised (.encodeLengthViolation _) => false
  | .raised .overflow => false
  | .raised (.opRefused _) => false
  | .encoded _ => false
  | .scanned _ => false
  | .ok => false
  | .empty => false
  | .awaiting => false

/-- At most `fuel` EXTRACTs, stopping at the first Awaiting or Empty. -/
def State.extracts : Nat → State → Except Fault State
  | 0, s => .ok s
  | fuel + 1, s =>
    match s.extractOp with
    | .error f => .error f
    | .ok (t, r) => if r.stopsDrain then .ok t else State.extracts fuel t

/-- DRAIN: EXTRACT until Awaiting or Empty. Each EXTRACT that is neither removes at least one byte, so
`rx_len + 1` of them suffice (R130). -/
def State.drain (s : State) : Except Fault State := State.extracts (s.rxLen + 1) s

/-- FEED(bytes): APPEND, then DRAIN (R78). -/
def State.feed (s : State) (bytes : List Byte) : Except Fault State :=
  match s.appendOp bytes with
  | .error f => .error f
  | .ok (t, _) => t.drain

/-- FEED of each chunk in turn (R131 (c)). -/
def State.feedAll : List (List Byte) → State → Except Fault State
  | [], s => .ok s
  | chunk :: chunks, s =>
    match s.feed chunk with
    | .error f => .error f
    | .ok t => State.feedAll chunks t

/-- A byte sequence fed one byte at a time, one EXTRACT after each APPEND (R131 (a)). -/
def State.feedBytewise : List Byte → State → Except Fault State
  | [], s => .ok s
  | b :: bs, s =>
    match s.appendOp [b] with
    | .error f => .error f
    | .ok (t, _) =>
      match t.extractOp with
      | .error f => .error f
      | .ok (u, _) => State.feedBytewise bs u

end Sys2Proof.Machine
end

