-- ==== Sys2Proof/Safety.lean ====
section
/-! DEFINITION. What the claims speak of: the invariant of the machine, candidates in the spec's own
index terms (R101), and which parts of the state an operation may touch. -/

namespace Sys2Proof.Machine

/-- The invariant of the block (spec R21, R123 (f)): CAPACITY is at least 2, the buffer's cells are in
canonical form, no cell stands at index CAPACITY - 1 or above, and `rx_len <= MAX_OCC`. -/
def State.BlockInv (s : State) : Prop :=
  s.cfg.Wf ∧ Mem.Wf s.rxBuf ∧ (∀ c ∈ s.rxBuf, c.1 < s.cfg.maxOcc) ∧ s.rxLen ≤ s.cfg.maxOcc

/-- The invariant of the session (R152): PendingRequestFlag is true exactly in AwaitingResponse. -/
def State.HostInv (s : State) : Prop :=
  s.pendingRequest = true ↔ s.phase = .awaitingResponse

/-- The whole invariant. -/
def State.Inv (s : State) : Prop := s.BlockInv ∧ s.HostInv

/-- Offset `i` is a candidate of `b` (R101). -/
def Candidate (recog : List (Byte × Byte)) (b : List Byte) (i : Nat) : Prop :=
  i + 1 < b.length ∧ (b.getD i 0#8, b.getD (i + 1) 0#8) ∈ recog

/-- Offset `i` is the first candidate of `b` (R102). -/
def FirstCandidate (recog : List (Byte × Byte)) (b : List Byte) (i : Nat) : Prop :=
  Candidate recog b i ∧ ∀ j < i, ¬ Candidate recog b j

/-- The four payload bytes from offset `k` on are the float `v`, least significant byte first (R181). -/
def FloatAt (p : List Byte) (k : Nat) (v : FloatBits) : Prop :=
  v.toNat = (p.getD k 0#8).toNat + 256 * (p.getD (k + 1) 0#8).toNat +
    65536 * (p.getD (k + 2) 0#8).toNat + 16777216 * (p.getD (k + 3) 0#8).toNat

/-- Everything but the receive buffer, its length and the results is the same in both states. -/
def State.SameOutside (s t : State) : Prop :=
  t.cfg = s.cfg ∧ t.phase = s.phase ∧ t.pendingRequest = s.pendingRequest ∧
  t.incoming = s.incoming ∧ t.outgoing = s.outgoing ∧ t.events = s.events ∧ t.pending = s.pending

/-- Two states no operation can tell apart (R29): they agree on everything but the bytes of `rx_buf`
at indices `rx_len` and above. -/
def State.SameSeen (s t : State) : Prop :=
  s.SameOutside t ∧ t.results = s.results ∧ t.rxLen = s.rxLen ∧ t.contents = s.contents

end Sys2Proof.Machine
end

