-- ==== Sys2Proof/Certificates/Slice0/Obligations.lean ====
section
/-! DEFINITION. The statements for the provers, in the order of the spec's files. Parameters CAPACITY
and RECOG are fields of the state, so a statement over every state is one over every parameter. -/

open Sys2Proof Sys2Proof.Machine

/-! ### Decoding and stepping -/

/-- Decode and encode agree: every well-formed instruction, every operand value (R60, R71, R72). -/
def Obligations.DecodeOfEncodeIsIdentity : Prop :=
  ∀ i : Instr, i.wellFormed = true → decode (encode i) = .ok i

/-- What the decoder accepts is well-formed, and where the op word has no bits above `op[2:0]` the
encoder gives back exactly the words or bytes presented. -/
def Obligations.EncodeOfDecodeIsIdentity : Prop :=
  ∀ (p : Presented) (i : Instr), decode p = .ok i →
    i.wellFormed = true ∧ ((∀ w ws, p = .command (w :: ws) → w < 8) → encode i = p)

/-- A few words written out from the spec: program lines of 95_test_vectors.md part 3 (R71, R72) and
frames of R60. -/
def Obligations.DecodesWordsOfTheSpec : Prop :=
  decode (.command [0, 0xF0, 0xA1, 0xC0, 4, 0xA4, 0x70, 0x45, 0x41]) =
    .ok (.encode 0xF0#8 0xA1#8 0xC0#8 [0xA4#8, 0x70#8, 0x45#8, 0x41#8]) ∧
  decode (.command [1, 2, 0xF0, 0xA1]) = .ok (.scan [0xF0#8, 0xA1#8]) ∧
  decode (.command [2, 3, 0x02, 0x03, 0x19]) = .ok (.append [0x02#8, 0x03#8, 0x19#8]) ∧
  decode (.command [3]) = .ok .extract ∧
  decode (.command [4]) = .ok .clear ∧
  decode (.wire [0xF0#8, 0xA1#8, 0x10#8, 3#8, 1#8, 2#8, 3#8, 0x19#8]) =
    .ok (.frameRxGetAll 0x10#8 [1#8, 2#8, 3#8] 0x19#8) ∧
  decode (.wire [0xF1#8, 0xA1#8, 0xFF#8, 1#8, 0#8, 0#8]) = .ok (.frameTxGetAll 0xFF#8 [0#8] 0#8) ∧
  decode (.wire [0xF1#8, 0xC1#8, 0x00#8, 1#8, 1#8, 2#8]) = .ok (.frameTxControl 0x00#8 [1#8] 2#8)

/-- A reserved op is taken before any operand is looked at (R211, R74). -/
def Obligations.ReservedOpsDecodeWithAnyOperands : Prop :=
  ∀ (w : CmdWord) (ws : List CmdWord),
    (w % 8 = 5 → decode (.command (w :: ws)) = .ok (.reserved5 ws)) ∧
    (w % 8 = 6 → decode (.command (w :: ws)) = .ok (.reserved6 ws)) ∧
    (w % 8 = 7 → decode (.command (w :: ws)) = .ok (.reserved7 ws))

/-- A step runs what is presented first: an operation or frame is decoded and executed on the state
with it taken from the queue; a host event is run; with nothing presented nothing changes (R46, R50,
R209). The queue is the model's own, log entry 10. The model's choice, not a rule: words that are no
command issue nothing, log entry 7, and bytes that are no named frame pass on the link, log entry 9. -/
def Obligations.StepRunsTheDecodedInstruction : Prop :=
  ∀ (s : State) (rest : List Stimulus),
    (∀ (p : Presented) (i : Instr), s.pending = .issue p :: rest → decode p = .ok i →
      step s = exec i { s with pending := rest }) ∧
    (∀ (ws : List CmdWord) (r : Reject), s.pending = .issue (.command ws) :: rest →
      decode (.command ws) = .error r → step s = .next { s with pending := rest }) ∧
    (∀ (bs : List Byte) (r : Reject), s.pending = .issue (.wire bs) :: rest →
      decode (.wire bs) = .error r → step s = .next (State.carry { s with pending := rest } bs)) ∧
    (∀ e : HostEvent, s.pending = .host e :: rest →
      step s = hostStep e { s with pending := rest }) ∧
    (s.pending = [] → step s = .next s)

/-- Nothing on the wire is illegal (R75): any byte sequence passes on the link. What begins with the
outbound marker joins the write side, all else the read side; that is log entry 8 for the named frames
and log entry 9 for the rest. -/
def Obligations.LinkCarriesEveryByteSequence : Prop :=
  ∀ (s : State) (bs : List Byte) (rest : List Stimulus), s.pending = .issue (.wire bs) :: rest →
    (bs.head? = some 0xF1#8 →
      step s = .next { s with pending := rest, outgoing := s.outgoing ++ bs }) ∧
    (bs.head? ≠ some 0xF1#8 →
      step s = .next { s with pending := rest, incoming := s.incoming ++ bs })

/-! ### Reset and invariants -/

/-- The reset table (R230): `rx_len` 0 after power-on, after CLEAR and after an overflowing APPEND;
parameters unchanged by the latter two; the host Idle with no request outstanding, and not touched by
CLEAR or APPEND. That the parameters stand at their defaults at power-on is the model's choice, log
entry 2. -/
def Obligations.ResetTable : Prop :=
  (State.reset.rxLen = 0 ∧ State.reset.cfg.capacity = 8192 ∧ State.reset.cfg.maxOcc = 8191 ∧
    State.reset.cfg.recog = [(0xF0#8, 0xA1#8)] ∧ State.reset.phase = .idle ∧
    State.reset.pendingRequest = false) ∧
  (∀ s : State, ∃ t, exec .clear s = .next t ∧ t.rxLen = 0 ∧ t.cfg = s.cfg ∧ t.phase = s.phase ∧
    t.pendingRequest = s.pendingRequest) ∧
  (∀ (s : State) (chunk : List Byte), s.cfg.maxOcc < s.rxLen + chunk.length →
    ∃ t, exec (.append chunk) s = .next t ∧ t.rxLen = 0 ∧ t.cfg = s.cfg ∧ t.phase = s.phase ∧
      t.pendingRequest = s.pendingRequest)

/-- EXTRACT straight after reset returns Empty and changes nothing (R231, R132 (a)). -/
def Obligations.ExtractAfterResetIsEmpty : Prop :=
  exec .extract State.reset = .next { State.reset with results := [.empty] }

/-- The reset state meets the invariant. -/
def Obligations.ResetMeetsInvariant : Prop := State.reset.Inv

/-- Every step keeps the invariant: `rx_len <= MAX_OCC` (R21), the buffer's canonical form, no byte at
index CAPACITY - 1 (R123 (f)), and the flag true exactly in AwaitingResponse (R152). -/
def Obligations.StepKeepsInvariant : Prop :=
  ∀ s t : State, s.Inv → step s = .next t → t.Inv

/-- The block is total: with `rx_len <= MAX_OCC` every instruction gives a next state, and a command
exactly one result (R256, R207); no step of the whole machine faults; and whatever is presented as an
operation or on the link, the step answers a next state (log entries 7 and 9 for what is no
instruction). -/
def Obligations.BlockIsNeverStuck : Prop :=
  (∀ (s : State) (i : Instr), s.rxLen ≤ s.cfg.maxOcc →
    ∃ t, exec i s = .next t ∧
      ((∃ ws, encode i = .command ws) → ∃ r, t.results = s.results ++ [r])) ∧
  (∀ (s : State) (f : Fault), s.rxLen ≤ s.cfg.maxOcc → step s ≠ .fault f) ∧
  (∀ (s : State) (p : Presented) (rest : List Stimulus), s.rxLen ≤ s.cfg.maxOcc →
    s.pending = .issue p :: rest → ∃ t, step s = .next t)

/-- No step changes CAPACITY or RECOG (R25, R143). -/
def Obligations.ParametersNeverChange : Prop :=
  ∀ s t : State, step s = .next t → t.cfg = s.cfg

/-- A result, an event and a byte on the wire, once there, stay: a step only adds behind them (R48,
R52). -/
def Obligations.RecordsOnlyGrow : Prop :=
  ∀ s t : State, step s = .next t →
    (∃ rs, t.results = s.results ++ rs) ∧ (∃ es, t.events = s.events ++ es) ∧
    (∃ bs, t.outgoing = s.outgoing ++ bs)

/-- The bytes of `rx_buf` at and above `rx_len` are unobservable (R29): from two states that differ in
nothing else, a step does the same, and the states after it again differ in nothing else. -/
def Obligations.BytesAboveLengthAreUnobservable : Prop :=
  ∀ s t : State, Mem.Wf s.rxBuf → Mem.Wf t.rxBuf → s.SameSeen t →
    (∀ s', step s = .next s' → ∃ t', step t = .next t' ∧ s'.SameSeen t') ∧
    (∀ r, step s = .refused r → step t = .refused r) ∧
    (∀ f, step s = .fault f → step t = .fault f)

/-- The byte at index CAPACITY - 1 is never written, by any step (R123 (f), R29 (a)). -/
def Obligations.SentinelIndexIsNeverWritten : Prop :=
  ∀ s t : State, s.rxLen ≤ s.cfg.maxOcc → step s = .next t →
    Mem.byteAt t.rxBuf (s.cfg.capacity - 1) = Mem.byteAt s.rxBuf (s.cfg.capacity - 1)

/-! ### Frames: what an instruction leaves alone -/

/-- A command touches nothing outside the receive buffer, its length and the results; ENCODE, SCAN and
the reserved ops touch neither buffer nor length, and CLEAR no byte of the buffer (R40, R51, R141,
R212). -/
def Obligations.CommandsLeaveTheRestAlone : Prop :=
  ∀ (i : Instr) (s t : State), (∃ ws, encode i = .command ws) → exec i s = .next t →
    s.SameOutside t ∧
    (i ≠ .extract → (∀ chunk, i ≠ .append chunk) → t.rxBuf = s.rxBuf ∧ (i ≠ .clear → t.rxLen = s.rxLen))

/-- A frame passing on the link leaves the block, the host, the results, the events and the queue
alone; which direction of the transport it reaches is stated apart. That a wire row changes nothing but
the transport is the model's choice, log entry 8. -/
def Obligations.WireFramesLeaveTheBlockAlone : Prop :=
  ∀ (i : Instr) (s t : State), (∃ bs, encode i = .wire bs) → exec i s = .next t →
    t.cfg = s.cfg ∧ t.rxBuf = s.rxBuf ∧ t.rxLen = s.rxLen ∧ t.results = s.results ∧
    t.phase = s.phase ∧ t.pendingRequest = s.pendingRequest ∧ t.events = s.events ∧
    t.pending = s.pending

/-! ### Checksum and ENCODE -/

/-- The unreduced sum fits 16 bits, and an 8-bit accumulator that wraps on every addition gives the
checksum (R66). -/
def Obligations.ChecksumAccumulatesInEightBits : Prop :=
  ∀ (sub : Byte) (p : List Byte), p.length ≤ 255 →
    sub.toNat + p.length + byteSum p ≤ 65535 ∧
    checksumStepwise sub (BitVec.ofNat 8 p.length) p =
      BitVec.ofNat 8 ((sub.toNat + p.length + byteSum p) % 256)

/-- ENCODE (R90 to R92): the frame byte by byte for up to 255 payload bytes, the refusal above; nothing
else changes. -/
def Obligations.EncodeBuildsTheFrameOrRefuses : Prop :=
  ∀ (m t sub : Byte) (p : List Byte) (s : State),
    (p.length ≤ 255 →
      exec (.encode m t sub p) s =
        .next { s with
          results := s.results ++
            [.encoded ([m, t, sub, BitVec.ofNat 8 p.length] ++ p ++
              [BitVec.ofNat 8 ((sub.toNat + p.length + byteSum p) % 256)])] }) ∧
    (255 < p.length →
      exec (.encode m t sub p) s =
        .next { s with results := s.results ++ [.raised (.encodeLengthViolation p.length)] })

/-- ENCODE's corner cases (R94): the empty payload, the longest frame, the wrap with its example,
payload bytes copied, and a checksum that depends on neither marker nor type code. -/
def Obligations.EncodeCornerCases : Prop :=
  (∀ (m t sub : Byte) (p : List Byte) (s : State), p.length ≤ 255 →
    ∃ f, exec (.encode m t sub p) s = .next { s with results := s.results ++ [.encoded f] } ∧
      f.length = p.length + 5 ∧
      (p = [] → f = [m, t, sub, 0#8, sub]) ∧
      (p.length = 255 → f.length = 260 ∧ f.getD 3 0#8 = 0xFF#8) ∧
      f.getD (p.length + 4) 0#8 = checksumStepwise sub (BitVec.ofNat 8 p.length) p ∧
      f.getD (p.length + 4) 0#8 = BitVec.ofNat 8 ((sub.toNat + p.length + byteSum p) % 256) ∧
      (∀ k < p.length, f.getD (4 + k) 0#8 = p.getD k 0#8) ∧
      (∀ m' t' : Byte, ∃ f', exec (.encode m' t' sub p) s =
          .next { s with results := s.results ++ [.encoded f'] } ∧ f'.drop 2 = f.drop 2)) ∧
  (∀ s : State, exec (.encode 0xF1#8 0xA1#8 0xFF#8 [0#8]) s = .next { s with results := s.results ++
    [.encoded [0xF1#8, 0xA1#8, 0xFF#8, 0x01#8, 0x00#8, 0x00#8]] })

/-- The round trip (R95): what ENCODE builds with a recognised pair, SCAN reads back. -/
def Obligations.ScanReadsBackEncode : Prop :=
  ∀ (m t sub : Byte) (p : List Byte) (s : State), (m, t) ∈ s.cfg.recog → p.length ≤ 255 →
    ∃ f, exec (.encode m t sub p) s = .next { s with results := s.results ++ [.encoded f] } ∧
      exec (.scan f) s =
        .next { s with results := s.results ++ [.scanned (.validFrame t sub p (p.length + 5))] }

/-- ENCODE is a pure, total function of its inputs (R93): one result, whatever the state; and issued
before a receive operation it changes neither that operation's result nor what it leaves. -/
def Obligations.EncodeDisturbsNoReceiveOperation : Prop :=
  ∀ (m t sub : Byte) (p : List Byte), ∃ x : Result,
    (∀ s : State, exec (.encode m t sub p) s = .next { s with results := s.results ++ [x] }) ∧
    (∀ (i : Instr) (s v : State), (i = .extract ∨ i = .clear ∨ ∃ chunk, i = .append chunk) →
      exec i s = .next v →
      ∃ w r, exec i { s with results := s.results ++ [x] } = .next w ∧
        v.results = s.results ++ [r] ∧ w.results = s.results ++ [x, r] ∧
        w.rxBuf = v.rxBuf ∧ w.rxLen = v.rxLen)

/-! ### SCAN -/

/-- SCAN (R100 to R107, R110) in the spec's index terms: NoFrame without a candidate; otherwise the
first candidate decides: header, body, checksum, in that order. Nothing else changes. -/
def Obligations.ScanClassifiesTheFirstCandidate : Prop :=
  ∀ (b : List Byte) (s : State),
    ((∀ i, ¬ Candidate s.cfg.recog b i) →
      exec (.scan b) s = .next { s with results := s.results ++ [.scanned .noFrame] }) ∧
    (∀ i, FirstCandidate s.cfg.recog b i →
      (b.length < i + 4 →
        exec (.scan b) s = .next { s with results := s.results ++ [.scanned .partialFrame] }) ∧
      (∀ n, i + 4 ≤ b.length → n = (b.getD (i + 3) 0#8).toNat →
        (b.length < i + n + 5 →
          exec (.scan b) s = .next { s with results := s.results ++ [.scanned .partialFrame] }) ∧
        (i + n + 5 ≤ b.length →
          ∀ expected actual : Byte,
            expected.toNat =
              ((b.getD (i + 2) 0#8).toNat + n + byteSum ((b.drop (i + 4)).take n)) % 256 →
            actual = b.getD (i + 4 + n) 0#8 →
            (expected = actual →
              exec (.scan b) s = .next { s with results := s.results ++
                [.scanned (.validFrame (b.getD (i + 1) 0#8) (b.getD (i + 2) 0#8)
                  ((b.drop (i + 4)).take n) (i + n + 5))] }) ∧
            (expected ≠ actual →
              exec (.scan b) s = .next { s with results := s.results ++
                [.scanned (.invalidFrame (.checksumMismatch i expected actual))] }))))

/-- The extension law (R112). -/
def Obligations.ScanExtensionLaw : Prop :=
  ∀ (recog : List (Byte × Byte)) (b t : List Byte),
    ((∃ reason, scanBytes recog b = .invalidFrame reason) →
      scanBytes recog (b ++ t) = scanBytes recog b) ∧
    ((∃ ty sub p c, scanBytes recog b = .validFrame ty sub p c) →
      scanBytes recog (b ++ t) = scanBytes recog b) ∧
    (∀ i, scanBytes recog b = .partialFrame → FirstCandidate recog b i →
      FirstCandidate recog (b ++ t) i ∧ scanBytes recog (b ++ t) ≠ .noFrame) ∧
    (∀ i, scanBytes recog b = .noFrame → FirstCandidate recog (b ++ t) i → b.length - 1 ≤ i)

/-- Checksum sensitivity, the cases that hold (R113 (a), (b); C5): one flipped bit in the sub-code, the
payload or the checksum byte of a frame gives InvalidFrame. -/
def Obligations.ScanDetectsFlippedBits : Prop :=
  ∀ (recog : List (Byte × Byte)) (m t sub : Byte) (p : List Byte) (j k : Nat),
    (m, t) ∈ recog → p.length ≤ 255 → 2 ≤ j → j ≠ 3 → j < p.length + 5 → k < 8 →
    ∃ e a, scanBytes recog ((buildFrame m t sub p).set j
        ((buildFrame m t sub p).getD j 0#8 ^^^ (1#8 <<< k))) =
      .invalidFrame (.checksumMismatch 0 e a)

/-- A length byte that grew makes the frame partial (R113 (d)), and one that shrank can leave a
ValidFrame: the spec's own example, `F0 A1 00 00 00 01` (C5). -/
def Obligations.ScanOfChangedLengthByte : Prop :=
  (∀ (recog : List (Byte × Byte)) (m t sub n : Byte) (p : List Byte),
    (m, t) ∈ recog → p.length ≤ 255 → p.length < n.toNat →
    scanBytes recog ((buildFrame m t sub p).set 3 n) = .partialFrame) ∧
  scanBytes Config.default.recog [0xF0#8, 0xA1#8, 0x00#8, 0x00#8, 0x00#8, 0x01#8] =
    .validFrame 0xA1#8 0x00#8 [] 5

/-- A wire frame whose pair is recognised scans as valid exactly when its checksum byte is the one of
R65, and otherwise as a checksum mismatch at offset 0 (R65, R75, R105, R106). -/
def Obligations.WireFrameScansByItsChecksum : Prop :=
  ∀ (recog : List (Byte × Byte)) (sub c : Byte) (p : List Byte) (bs : List Byte),
    (0xF0#8, 0xA1#8) ∈ recog → p.length ≤ 255 → encode (.frameRxGetAll sub p c) = .wire bs →
    (c.toNat = (sub.toNat + p.length + byteSum p) % 256 →
      scanBytes recog bs = .validFrame 0xA1#8 sub p (p.length + 5)) ∧
    (c.toNat ≠ (sub.toNat + p.length + byteSum p) % 256 →
      ∃ e, scanBytes recog bs = .invalidFrame (.checksumMismatch 0 e c))

/-! ### APPEND -/

/-- APPEND, the fitting case (R121). -/
def Obligations.AppendStoresTheChunk : Prop :=
  ∀ (s : State) (chunk : List Byte), Mem.Wf s.rxBuf → s.rxLen + chunk.length ≤ s.cfg.maxOcc →
    ∃ t, exec (.append chunk) s = .next t ∧
      t.rxLen = s.rxLen + chunk.length ∧
      (∀ k < chunk.length, Mem.byteAt t.rxBuf (s.rxLen + k) = chunk.getD k 0#8) ∧
      (∀ a, a < s.rxLen ∨ s.rxLen + chunk.length ≤ a →
        Mem.byteAt t.rxBuf a = Mem.byteAt s.rxBuf a) ∧
      Mem.Wf t.rxBuf ∧ t.results = s.results ++ [.ok] ∧ s.SameOutside t

/-- APPEND, the overflow case (R122): nothing stored, the buffer empty, Overflow; `rx_buf` and `rx_len`
as CLEAR would leave them. -/
def Obligations.AppendOverflowEmptiesTheBuffer : Prop :=
  ∀ (s : State) (chunk : List Byte), s.cfg.maxOcc < s.rxLen + chunk.length →
    exec (.append chunk) s =
      .next { s with rxLen := 0, results := s.results ++ [.raised .overflow] } ∧
    exec .clear s = .next { s with rxLen := 0, results := s.results ++ [.ok] }

/-- APPEND's corner cases (R123 (a), (b), (c)): the empty chunk, the exact fill, after which every
non-empty chunk overflows, and the chunk that never fits. -/
def Obligations.AppendCornerCases : Prop :=
  (∀ s : State, s.rxLen ≤ s.cfg.maxOcc →
    exec (.append []) s = .next { s with results := s.results ++ [.ok] }) ∧
  (∀ (s : State) (chunk more : List Byte), s.rxLen = 0 → chunk.length = s.cfg.maxOcc → more ≠ [] →
    ∃ t, exec (.append chunk) s = .next t ∧ t.rxLen = s.cfg.maxOcc ∧
      exec (.append more) t = .next { t with rxLen := 0, results := t.results ++ [.raised .overflow] }) ∧
  (∀ (s : State) (chunk : List Byte), s.cfg.maxOcc < chunk.length →
    exec (.append chunk) s =
      .next { s with rxLen := 0, results := s.results ++ [.raised .overflow] })

/-! ### EXTRACT -/

/-- EXTRACT on ValidFrame (R126): the consumed bytes go, the rest moves down in order, Frame. That the
bytes at and above the new `rx_len` keep their values is the model's choice, log entry 3. -/
def Obligations.ExtractDeliversAValidFrame : Prop :=
  ∀ (s : State) (t sub : Byte) (p : List Byte) (c : Nat), Mem.Wf s.rxBuf →
    s.rxLen ≤ s.cfg.maxOcc → scanBytes s.cfg.recog s.contents = .validFrame t sub p c →
    5 ≤ c ∧ c ≤ s.rxLen ∧
    ∃ u, exec .extract s = .next u ∧ u.rxLen = s.rxLen - c ∧
      (∀ j < s.rxLen - c, Mem.byteAt u.rxBuf j = Mem.byteAt s.rxBuf (j + c)) ∧
      (∀ a, s.rxLen - c ≤ a → Mem.byteAt u.rxBuf a = Mem.byteAt s.rxBuf a) ∧
      u.results = s.results ++ [.frame t sub p c] ∧ s.SameOutside u

/-- EXTRACT on InvalidFrame (R127): the skipped bytes and the marker byte go, nothing more, Corrupt.
That the bytes at and above the new `rx_len` keep their values is the model's choice, log entry 3. -/
def Obligations.ExtractStepsPastACorruptFrame : Prop :=
  ∀ (s : State) (i : Nat) (e a : Byte), Mem.Wf s.rxBuf → s.rxLen ≤ s.cfg.maxOcc →
    scanBytes s.cfg.recog s.contents = .invalidFrame (.checksumMismatch i e a) →
    i + 5 ≤ s.rxLen ∧
    ∃ u, exec .extract s = .next u ∧ u.rxLen = s.rxLen - (i + 1) ∧
      (∀ j < s.rxLen - (i + 1), Mem.byteAt u.rxBuf j = Mem.byteAt s.rxBuf (j + (i + 1))) ∧
      (∀ x, s.rxLen - (i + 1) ≤ x → Mem.byteAt u.rxBuf x = Mem.byteAt s.rxBuf x) ∧
      u.results = s.results ++ [.raised (.corrupt e a)] ∧ s.SameOutside u

/-- EXTRACT on PartialFrame and NoFrame (R128): Awaiting, Empty, the buffer untouched; and again the
same at the next EXTRACT (R132 (h)). -/
def Obligations.ExtractWaitsWithoutAFrame : Prop :=
  ∀ s : State, s.rxLen ≤ s.cfg.maxOcc →
    (scanBytes s.cfg.recog s.contents = .partialFrame →
      exec .extract s = .next { s with results := s.results ++ [.awaiting] } ∧
      exec .extract { s with results := s.results ++ [.awaiting] } =
        .next { s with results := s.results ++ [.awaiting, .awaiting] }) ∧
    (scanBytes s.cfg.recog s.contents = .noFrame →
      exec .extract s = .next { s with results := s.results ++ [.empty] } ∧
      exec .extract { s with results := s.results ++ [.empty] } =
        .next { s with results := s.results ++ [.empty, .empty] })

/-- What EXTRACT guarantees (R133): a Frame result stood in the buffer whole, as the bytes ENCODE gives
for its fields and a recognised pair, checksum right, behind the bytes skipped. -/
def Obligations.DeliveredFramesWereCompleteAndChecked : Prop :=
  ∀ (s u : State) (t sub : Byte) (p : List Byte) (c : Nat), exec .extract s = .next u →
    u.results = s.results ++ [.frame t sub p c] →
    ∃ (m : Byte) (skipped rest : List Byte), (m, t) ∈ s.cfg.recog ∧ p.length ≤ 255 ∧
      s.contents = skipped ++ ([m, t, sub, BitVec.ofNat 8 p.length] ++ p ++
        [BitVec.ofNat 8 ((sub.toNat + p.length + byteSum p) % 256)]) ++ rest ∧
      c = skipped.length + p.length + 5

/-- DRAIN ends (R130): after at most `rx_len` EXTRACTs that are Frame or Corrupt comes an Awaiting or
an Empty. -/
def Obligations.DrainReachesAwaitingOrEmpty : Prop :=
  ∀ s : State, s.rxLen ≤ s.cfg.maxOcc →
    ∃ t rs r, s.drain = .ok t ∧ t.results = s.results ++ rs ++ [r] ∧
      (r = .awaiting ∨ r = .empty) ∧ (∀ x ∈ rs, x.isDelivery = true) ∧
      rs.length + t.rxLen ≤ s.rxLen

/-- Byte at a time (R131 (a)): Empty after the first byte, Awaiting after each further one, Frame after
the last; all at once gives the same Frame. -/
def Obligations.BytewiseFeedDeliversTheFrame : Prop :=
  ∀ (s : State) (m t sub : Byte) (p : List Byte), Mem.Wf s.rxBuf → s.rxLen = 0 →
    (m, t) ∈ s.cfg.recog → p.length ≤ 255 → p.length + 5 ≤ s.cfg.maxOcc →
    (∃ u, s.feedBytewise (buildFrame m t sub p) = .ok u ∧ u.rxLen = 0 ∧
      u.results = s.results ++ ([.ok, .empty] ++
        (List.replicate (p.length + 3) [Result.ok, Result.awaiting]).flatten ++
        [.ok, .frame t sub p (p.length + 5)])) ∧
    (∃ v w, exec (.append (buildFrame m t sub p)) s = .next v ∧ exec .extract v = .next w ∧
      w.rxLen = 0 ∧ w.results = s.results ++ [.ok, .frame t sub p (p.length + 5)])

/-- Two frames in one APPEND (R131 (b)): two Frames, then Empty, no byte lost or reordered. -/
def Obligations.TwoFramesGiveTwoResults : Prop :=
  ∀ (s : State) (m t sub m' t' sub' : Byte) (p p' : List Byte), Mem.Wf s.rxBuf → s.rxLen = 0 →
    (m, t) ∈ s.cfg.recog → (m', t') ∈ s.cfg.recog → p.length ≤ 255 → p'.length ≤ 255 →
    (p.length + 5) + (p'.length + 5) ≤ s.cfg.maxOcc →
    ∃ a b c d, exec (.append (buildFrame m t sub p ++ buildFrame m' t' sub' p')) s = .next a ∧
      exec .extract a = .next b ∧ exec .extract b = .next c ∧ exec .extract c = .next d ∧
      d.rxLen = 0 ∧
      d.results = s.results ++ [.ok, .frame t sub p (p.length + 5),
        .frame t' sub' p' (p'.length + 5), .empty]

/-- Chunking independence (R131 (c)): however a stream is cut into chunks, feeding them in turn gives
the Frame and Corrupt results, and leaves the bytes, that feeding it whole gives. -/
def Obligations.ChunkingDoesNotMatter : Prop :=
  ∀ (s : State) (chunks : List (List Byte)), Mem.Wf s.rxBuf → s.rxLen = 0 →
    chunks.flatten.length ≤ s.cfg.maxOcc →
    ∃ t u, s.feedAll chunks = .ok t ∧ s.feed chunks.flatten = .ok u ∧ t.contents = u.contents ∧
      ∃ rs rs', t.results = s.results ++ rs ∧ u.results = s.results ++ rs' ∧
        rs.filter Result.isDelivery = rs'.filter Result.isDelivery

/-! ### CLEAR, reserved ops, wire frames, result codes -/

/-- CLEAR (R140, R141): `rx_len` 0, Ok, nothing else; twice is as once; EXTRACT after it returns Empty. -/
def Obligations.ClearEmptiesTheBuffer : Prop :=
  ∀ s : State,
    exec .clear s = .next { s with rxLen := 0, results := s.results ++ [.ok] } ∧
    exec .clear { s with rxLen := 0, results := s.results ++ [.ok] } =
      .next { s with rxLen := 0, results := s.results ++ [.ok, .ok] } ∧
    exec .extract { s with rxLen := 0, results := s.results ++ [.ok] } =
      .next { s with rxLen := 0, results := s.results ++ [.ok, .empty] }

/-- Reserved ops return OpRefused(op) and change no state (R74, R204). That the run goes on, with the
refusal recorded as a result, is the model's choice, log entry 11. -/
def Obligations.ReservedOpsAreRefused : Prop :=
  ∀ (ops : List CmdWord) (s : State),
    exec (.reserved5 ops) s =
      .next { s with results := s.results ++ [.raised (.opRefused 5)] } ∧
    exec (.reserved6 ops) s =
      .next { s with results := s.results ++ [.raised (.opRefused 6)] } ∧
    exec (.reserved7 ops) s =
      .next { s with results := s.results ++ [.raised (.opRefused 7)] }

/-- An inbound frame's bytes, laid out as R60 says, reach the transport's read side. That this is what
the table's row does when it runs is the model's choice, log entry 8. -/
def Obligations.InboundFrameReachesTheReadSide : Prop :=
  ∀ (sub c : Byte) (p : List Byte) (s : State),
    exec (.frameRxGetAll sub p c) s =
      .next { s with incoming := s.incoming ++
        ([0xF0#8, 0xA1#8, sub, BitVec.ofNat 8 p.length] ++ p ++ [c]) }

/-- An outbound frame's bytes reach the transport's write side; with the checksum of R65 they are the
bytes of ENCODE's result. The row's effect is the model's choice, log entry 8. -/
def Obligations.OutboundFramesReachTheWriteSide : Prop :=
  ∀ (sub c : Byte) (p : List Byte) (s : State),
    exec (.frameTxGetAll sub p c) s =
      .next { s with outgoing := s.outgoing ++
        ([0xF1#8, 0xA1#8, sub, BitVec.ofNat 8 p.length] ++ p ++ [c]) } ∧
    exec (.frameTxControl sub p c) s =
      .next { s with outgoing := s.outgoing ++
        ([0xF1#8, 0xC1#8, sub, BitVec.ofNat 8 p.length] ++ p ++ [c]) }

/-- The result codes (R73) and the cause codes (R200). -/
def Obligations.ResultAndCauseCodes : Prop :=
  ∀ (f p : List Byte) (n c : Nat) (reason : InvalidReason) (t sub e a : Byte),
    [Result.encoded f, .raised (.encodeLengthViolation n)].map Result.code = [0, 1] ∧
    [Result.scanned .noFrame, .scanned .partialFrame, .scanned (.invalidFrame reason),
      .scanned (.validFrame t sub p c)].map Result.code = [0, 1, 2, 3] ∧
    [Result.ok, .raised .overflow].map Result.code = [0, 1] ∧
    [Result.empty, .awaiting, .frame t sub p c, .raised (.corrupt e a)].map Result.code =
      [0, 1, 2, 3] ∧
    (Result.raised (.opRefused n)).code = 7 ∧
    [Exceptional.encodeLengthViolation n, .overflow, .corrupt e a, .opRefused n].map
      Exceptional.code = [1, 2, 3, 4]

/-! ### The host -/

/-- Connect (R153, R159, R142 (a)): from Idle or Faulted, CLEAR, flag false, AwaitingRequest. That bytes
waiting in the transport stay is the model's choice, log entry 22. -/
def Obligations.ConnectOpensACleanSession : Prop :=
  ∀ s : State, s.phase = .idle ∨ s.phase = .faulted →
    hostStep .connect s =
      .next { s with rxLen := 0, results := s.results ++ [.ok], phase := .awaitingRequest,
                     pendingRequest := false }

/-- The tick in AwaitingRequest (R154): the all-status request goes out whole, whatever REQ_PAYLOAD is,
the flag is set, AwaitingResponse. The consumer's SendAllStatusRequest (R165, R78) does the same there:
that it moves the host as the tick does is the model's choice, log entry 28, and so is a write side that
never would block, log entry 35. -/
def Obligations.TickSendsTheRequest : Prop :=
  ∀ (s : State) (choice : TickChoice), s.phase = .awaitingRequest →
    Config.reqPayload.length ≤ 255 ∧
    ∃ f, f = [0xF1#8, 0xA1#8, 0xFF#8, BitVec.ofNat 8 Config.reqPayload.length] ++
        Config.reqPayload ++
        [BitVec.ofNat 8 ((255 + Config.reqPayload.length + byteSum Config.reqPayload) % 256)] ∧
      hostStep (.tick choice) s =
        .next { s with results := s.results ++ [.encoded f], outgoing := s.outgoing ++ f,
                       phase := .awaitingResponse, pendingRequest := true } ∧
      hostStep .sendStatusRequest s =
        .next { s with results := s.results ++ [.encoded f], outgoing := s.outgoing ++ f,
                       phase := .awaitingResponse, pendingRequest := true }

/-- The tick in AwaitingResponse (R155, R156): the bytes read leave the transport and are appended, one
APPEND, Ok or Overflow as they fit or not; then EXTRACTs. Either a Frame came, the flag is cleared and
the host is back in AwaitingRequest with exactly one StatusUpdated, or none came and the host stays,
flag set, with no StatusUpdated; nothing is sent either way. A read hands at most MAX_OCC bytes to its
APPEND (R166; log entry 33). The model's choices after an Overflow: EXTRACT follows in the same tick, log
entry 17, and the consumer gets no event of it, log entry 36. -/
def Obligations.TickAwaitsTheResponse : Prop :=
  ∀ (s u : State) (choice : TickChoice) (n : Nat), s.phase = .awaitingResponse →
    s.pendingRequest = true → n = min choice.read s.cfg.maxOcc →
    hostStep (.tick choice) s = .next u →
    u.outgoing = s.outgoing ∧ u.incoming = s.incoming.drop n ∧
    ∃ x rs, u.results = s.results ++ x :: rs ∧ rs ≠ [] ∧
      (s.rxLen + (s.incoming.take n).length ≤ s.cfg.maxOcc → x = .ok) ∧
      (s.cfg.maxOcc < s.rxLen + (s.incoming.take n).length → x = .raised .overflow) ∧
      ((∃ rs' t sub p c es, rs = rs' ++ [.frame t sub p c] ∧
          (∀ t sub p c, Result.frame t sub p c ∉ rs') ∧
          u.phase = .awaitingRequest ∧ u.pendingRequest = false ∧
          u.events = s.events ++ es ++ [.statusUpdated (decodeStatus sub p)] ∧
          (∀ x ∈ es, ∃ e a, x = .checksumError e a)) ∨
       (∃ es, (∀ t sub p c, Result.frame t sub p c ∉ rs) ∧
          u.phase = .awaitingResponse ∧ u.pendingRequest = true ∧
          u.events = s.events ++ es ∧ (∀ x ∈ es, ∃ e a, x = .checksumError e a)))

/-- The poll in AwaitingResponse in block operations (R155, R156, R157): its read and APPEND is APPEND of
the bytes taken from the transport; its EXTRACT is EXTRACT, after which a Frame is decoded, emitted and
clears the flag, a Corrupt is surfaced or not, and anything else changes nothing more; a tick is its
read and APPEND followed by EXTRACTs, the first and, while the choice goes on after a Corrupt, further
ones. The model's choices: the parts may also be presented on their own, log entry 33; the EXTRACTs
follow also when the APPEND overflows, log entry 17; an Overflow gives no event, log entry 36. -/
def Obligations.PollIsAppendThenExtract : Prop :=
  ∀ s : State, s.phase = .awaitingResponse →
    (∀ n m, m = min n s.cfg.maxOcc → hostStep (.pollRead n) s =
      exec (.append (s.incoming.take m)) { s with incoming := s.incoming.drop m }) ∧
    (∀ (report : Bool) (w : State) (r : Result), exec .extract s = .next w →
      w.results = s.results ++ [r] →
      (∀ t sub p c, r = .frame t sub p c → hostStep (.pollExtract report) s =
        .next { w with phase := .awaitingRequest, pendingRequest := false,
                       events := w.events ++ [.statusUpdated (decodeStatus sub p)] }) ∧
      (∀ e a, r = .raised (.corrupt e a) → hostStep (.pollExtract report) s =
        .next { w with events := w.events ++ if report then [.checksumError e a] else [] }) ∧
      (r = .awaiting ∨ r = .empty → hostStep (.pollExtract report) s = .next w)) ∧
    (∀ (n : Nat) (report : Bool) (v : State), hostStep (.pollRead n) s = .next v →
      hostStep (.tick { read := n, report := report, goOn := [] }) s =
        hostStep (.pollExtract report) v ∧
      ∀ (again : Bool) (more : List Bool) (w : State) (r : Result),
        hostStep (.pollExtract report) v = .next w → w.results = v.results ++ [r] →
        ((∃ e a, r = .raised (.corrupt e a)) →
          hostStep (.tick { read := n, report := report, goOn := again :: more }) s =
            pollExtract again more w) ∧
        ((∀ e a, r ≠ .raised (.corrupt e a)) →
          hostStep (.tick { read := n, report := report, goOn := again :: more }) s = .next w))

/-- One outstanding request (R161): no tick, no part of one and no status-request command sends
anything while the flag is set. That the command then does nothing is the model's choice, log entry
28. -/
def Obligations.NoSecondRequestWhilePending : Prop :=
  ∀ (s u : State) (e : HostEvent), s.HostInv → s.pendingRequest = true →
    ((∃ choice, e = .tick choice) ∨ (∃ n, e = .pollRead n) ∨ (∃ report, e = .pollExtract report) ∨
      e = .sendStatusRequest) → hostStep e s = .next u →
    u.outgoing = s.outgoing

/-- PendingRequestFlag (R152): set only with a request frame sent; cleared only by a Frame result or by
the session's end. -/
def Obligations.FlagChangesOnlyAsTheRuleSays : Prop :=
  ∀ s u : State, s.HostInv → step s = .next u →
    (s.pendingRequest = false → u.pendingRequest = true →
      ∃ f, u.results = s.results ++ [.encoded f] ∧ u.outgoing = s.outgoing ++ f ∧
        f.take 3 = [0xF1#8, 0xA1#8, 0xFF#8]) ∧
    (s.pendingRequest = true → u.pendingRequest = false →
      (∃ rs t sub p c, u.results = s.results ++ rs ++ [.frame t sub p c]) ∨
      (∃ r rest, s.pending = .host (.ioError r) :: rest) ∨
      (∃ rest, s.pending = .host .close :: rest))

/-- A hard I/O error (R158): CLEAR, flag cleared, Faulted, one ConnectionLost. In Faulted the
connection is already torn down: no second notification, the model's choice, log entry 20. That bytes
waiting in the transport stay over the fault is its choice too, log entry 22, and that the error never
falls inside a send, log entry 32. -/
def Obligations.IoErrorFaultsTheSession : Prop :=
  ∀ (s : State) (r : IoReason),
    (s.phase ≠ .faulted → hostStep (.ioError r) s =
      .next { s with rxLen := 0, results := s.results ++ [.ok], phase := .faulted,
                     pendingRequest := false, events := s.events ++ [.connectionLost r] }) ∧
    (s.phase = .faulted → hostStep (.ioError r) s =
      .next { s with rxLen := 0, results := s.results ++ [.ok], phase := .faulted,
                     pendingRequest := false })

/-- Faulted is left only for AwaitingRequest, by an explicit connect (R159), which works. -/
def Obligations.FaultedUntilConnect : Prop :=
  ∀ s : State, s.phase = .faulted →
    (∀ u, step s = .next u → u.phase = .faulted ∨
      (u.phase = .awaitingRequest ∧ ∃ rest, s.pending = .host .connect :: rest)) ∧
    (∀ rest, s.pending = .host .connect :: rest →
      ∃ u, step s = .next u ∧ u.phase = .awaitingRequest)

/-- The connection closes (R142 (b), R31): CLEAR, flag cleared. That the host is then Idle is the
model's choice, log entry 19, and that bytes waiting in the transport stay is log entry 22. -/
def Obligations.CloseEndsTheSession : Prop :=
  ∀ s : State, s.phase = .awaitingRequest ∨ s.phase = .awaitingResponse →
    hostStep .close s =
      .next { s with rxLen := 0, results := s.results ++ [.ok], phase := .idle,
                     pendingRequest := false }

/-- Where the consumer's events come from (R210): StatusUpdated from a Frame result of this step,
decoded; ChecksumError from a Corrupt result of this step, the same two values; ConnectionLost from a
hard I/O error, and then it is the only one. -/
def Obligations.EventsComeFromTheirCauses : Prop :=
  ∀ s u : State, step s = .next u →
    ∃ rs es, u.results = s.results ++ rs ∧ u.events = s.events ++ es ∧
      (∀ d, Event.statusUpdated d ∈ es →
        ∃ t sub p c, Result.frame t sub p c ∈ rs ∧ d = decodeStatus sub p) ∧
      (∀ e a, Event.checksumError e a ∈ es → Result.raised (.corrupt e a) ∈ rs) ∧
      (∀ r, Event.connectionLost r ∈ es →
        es = [.connectionLost r] ∧ ∃ rest, s.pending = .host (.ioError r) :: rest)

/-- A command send (R160): while connected the frame goes out, whatever the flag, and neither the flag,
the host's state nor the receive state changes; a payload ENCODE refuses sends nothing (R92). The float
form sends four bytes, least significant first (R181), the byte form one. That SendTypedCommand takes
bytes of any length is the model's reading of R78, log entry 34; that no write would block is its choice,
log entry 35. -/
def Obligations.CommandSendIsFireAndForget : Prop :=
  ∀ (s : State) (t sub : Byte), s.phase = .awaitingRequest ∨ s.phase = .awaitingResponse →
    (∀ p : List Byte, p.length ≤ 255 → ∃ f, f = [0xF1#8, t, sub, BitVec.ofNat 8 p.length] ++ p ++
        [BitVec.ofNat 8 ((sub.toNat + p.length + byteSum p) % 256)] ∧
      hostStep (.sendTyped t sub p) s =
        .next { s with results := s.results ++ [.encoded f], outgoing := s.outgoing ++ f }) ∧
    (∀ p : List Byte, 255 < p.length → hostStep (.sendTyped t sub p) s =
      .next { s with results := s.results ++ [.raised (.encodeLengthViolation p.length)] }) ∧
    (∀ v : FloatBits, ∃ b0 b1 b2 b3 f, FloatAt [b0, b1, b2, b3] 0 v ∧
      f = [0xF1#8, t, sub, 4#8, b0, b1, b2, b3,
        BitVec.ofNat 8 ((sub.toNat + 4 + byteSum [b0, b1, b2, b3]) % 256)] ∧
      hostStep (.sendFloat t sub v) s =
        .next { s with results := s.results ++ [.encoded f], outgoing := s.outgoing ++ f }) ∧
    (∀ b : Byte, ∃ f,
      f = [0xF1#8, t, sub, 1#8, b, BitVec.ofNat 8 ((sub.toNat + 1 + b.toNat) % 256)] ∧
      hostStep (.sendByte t sub b) s =
        .next { s with results := s.results ++ [.encoded f], outgoing := s.outgoing ++ f })

/-- The transport's free inputs (R4, R154): bytes received wait behind those waiting, bytes lost are the
oldest waiting; neither touches the block, the host or the write side. That the loss takes the oldest is
the model's choice, log entry 22. -/
def Obligations.TransportInputsTouchOnlyTheReadSide : Prop :=
  ∀ (s : State) (rest : List Stimulus),
    (∀ bs, s.pending = .host (.received bs) :: rest →
      step s = .next { s with pending := rest, incoming := s.incoming ++ bs }) ∧
    (∀ n, s.pending = .host (.lost n) :: rest →
      step s = .next { s with pending := rest, incoming := s.incoming.drop n })

/-- One response from the link to the consumer: a frame with the right checksum arrives, one tick reads
it, the status is decoded and emitted, the flag cleared (R126, R155, R60). How the frame reaches the
host is the model's choice, log entry 8. -/
def Obligations.ResponseReachesTheConsumer : Prop :=
  ∀ (s : State) (sub c : Byte) (p : List Byte) (choice : TickChoice), Mem.Wf s.rxBuf →
    s.phase = .awaitingResponse → s.rxLen = 0 → s.incoming = [] → (0xF0#8, 0xA1#8) ∈ s.cfg.recog →
    p.length ≤ 255 → p.length + 5 ≤ s.cfg.maxOcc → p.length + 5 ≤ choice.read →
    c.toNat = (sub.toNat + p.length + byteSum p) % 256 →
    ∃ t u, exec (.frameRxGetAll sub p c) s = .next t ∧ hostStep (.tick choice) t = .next u ∧
      u.rxLen = 0 ∧ u.incoming = [] ∧ u.phase = .awaitingRequest ∧ u.pendingRequest = false ∧
      u.events = s.events ++ [.statusUpdated (decodeStatus sub p)] ∧
      u.results = s.results ++ [.ok, .frame 0xA1#8 sub p (p.length + 5)]

/-! ### The payload decoder -/

/-- The offsets of the sub-code 255 layout that R182 states, and the input voltage of sub-code 192
(R185). A float is four bytes, least significant first (R181). Where R182 states a range or a start and
infers the order inside it, the statement holds for some order: which float of a group pair is the
voltage, which threshold and which setting is which. -/
def Obligations.DecoderReadsTheStatedFields : Prop :=
  (∀ p : List Byte, 119 ≤ p.length → ∃ d, decodeStatus 255#8 p = .allData d ∧
    FloatAt p 0 d.inputVoltage ∧ FloatAt p 4 d.setVoltage ∧ FloatAt p 12 d.outputVoltage ∧
    FloatAt p 24 d.temperature ∧ FloatAt p 111 d.upperVoltage ∧ FloatAt p 115 d.upperCurrent ∧
    d.groups.length = 6 ∧
    (∀ k < 6, ∃ v c, d.groups[k]? = some (v, c) ∧
      ((FloatAt p (28 + 8 * k) v ∧ FloatAt p (32 + 8 * k) c) ∨
       (FloatAt p (28 + 8 * k) c ∧ FloatAt p (32 + 8 * k) v))) ∧
    (∃ ks : List Nat, ks.Perm [76, 80, 84, 88, 92] ∧
      List.Forall₂ (FloatAt p) ks [d.ovp, d.ocp, d.opp, d.otp, d.lvp]) ∧
    (∃ ks : List Nat, ks.Perm [96, 97, 98] ∧
      ks.map (fun k => p.getD k 0#8) = [d.brightness, d.volume, d.meteringMode]) ∧
    d.protection = protectionOf (p.getD 108 0#8) ∧ d.ccCvMode = p.getD 109 0#8) ∧
  (∀ b0 b1 b2 b3 : Byte, ∃ v, decodeStatus 192#8 [b0, b1, b2, b3] = .inputVoltage v ∧
    FloatAt [b0, b1, b2, b3] 0 v)

/-- The text format (R181): a field of up to 32 bytes, its characters then nulls, reads as the
characters. -/
def Obligations.TextFieldsReadToTheirPadding : Prop :=
  ∀ (before chars behind : List Byte) (width : Nat), width ≤ 32 → chars.length ≤ width →
    (∀ c ∈ chars, c ≠ 0#8) →
    payloadText (before ++ (chars ++ List.replicate (width - chars.length) 0#8) ++ behind)
      before.length width = chars

/-- The protection-state code (R183): 6 is REP, and a code outside 0 to 6 is UNKNOWN with the raw
code; no code inside is. -/
def Obligations.ProtectionStateCodes : Prop :=
  ∀ code : Byte, protectionOf 6#8 = .rep ∧
    (6 < code.toNat → protectionOf code = .unknown code) ∧
    (code.toNat ≤ 6 → ∀ c, protectionOf code ≠ .unknown c)

/-- Unknown codes (R186): a code outside the recognised set becomes Unknown, with the raw code and the
payload; decoding never fails. -/
def Obligations.UnknownCodesCarryTheirPayload : Prop :=
  ∀ (sub : Byte) (p : List Byte),
    sub ∉ [255#8, 192#8, 195#8, 196#8, 219#8, 221#8, 222#8, 223#8, 224#8] →
    decodeStatus sub p = .unknown sub p
end

