-- ==== Sys2Proof/Laws/Memory.lean ====
section
/-! SUPPORT. The laws of the receive buffer: a byte written is read back, other bytes stay, and every
operation keeps the canonical form. -/

namespace Sys2Proof.Machine

theorem Mem.wf_cons {k : Nat} {v : Byte} {m : Mem} :
    Mem.Wf ((k, v) :: m) ↔ (∀ c ∈ m, k < c.1) ∧ v ≠ Mem.unlisted ∧ Mem.Wf m := by
  simp only [Mem.Wf, List.map_cons, List.pairwise_cons, List.mem_map, List.mem_cons,
    forall_exists_index, and_imp, forall_apply_eq_imp_iff₂, forall_eq_or_imp]
  tauto

theorem Mem.byteAt_of_lt {m : Mem} {a : Nat} (h : ∀ c ∈ m, a < c.1) :
    Mem.byteAt m a = Mem.unlisted := by
  induction m with
  | nil => rfl
  | cons c m ih =>
    obtain ⟨k, v⟩ := c
    have hk : a < k := h (k, v) (by simp)
    have : k ≠ a := by omega
    simp only [Mem.byteAt, if_neg this]
    exact ih fun c hc => h c (by simp [hc])

theorem Mem.byteAt_setByte_ne (m : Mem) {a x : Nat} (b : Byte) (h : x ≠ a) :
    Mem.byteAt (Mem.setByte m a b) x = Mem.byteAt m x := by
  induction m with
  | nil =>
    simp only [Mem.setByte]
    split
    · rfl
    · simp [Mem.byteAt, h.symm]
  | cons c m ih =>
    obtain ⟨k, v⟩ := c
    simp only [Mem.setByte]
    have h' : a ≠ x := h.symm
    split_ifs with h1 h2 h3 h4
    · rfl
    · simp [Mem.byteAt, h']
    · simp [Mem.byteAt, ← h3, h']
    · simp [Mem.byteAt, ← h3, h']
    · simp only [Mem.byteAt, ih]

theorem Mem.byteAt_setByte_same {m : Mem} (hm : Mem.Wf m) (a : Nat) (b : Byte) :
    Mem.byteAt (Mem.setByte m a b) a = b := by
  induction m with
  | nil =>
    simp only [Mem.setByte]
    split_ifs with hb
    · simp [Mem.byteAt, hb]
    · simp [Mem.byteAt]
  | cons c m ih =>
    obtain ⟨k, v⟩ := c
    obtain ⟨hk, hv, hm'⟩ := Mem.wf_cons.1 hm
    simp only [Mem.setByte]
    split_ifs with h1 h2 h3 h4
    · rw [h2]
      exact Mem.byteAt_of_lt fun c hc => by
        rcases List.mem_cons.1 hc with rfl | hc
        · exact h1
        · exact lt_trans h1 (hk c hc)
    · simp [Mem.byteAt]
    · rw [h4]
      exact Mem.byteAt_of_lt fun c hc => by rw [h3]; exact hk c hc
    · simp [Mem.byteAt]
    · have : k ≠ a := fun h => h3 h.symm
      simp only [Mem.byteAt, if_neg this]
      exact ih hm'

theorem Mem.key_of_mem_setByte {m : Mem} {a : Nat} {b : Byte} {c : Host.Cell}
    (h : c ∈ Mem.setByte m a b) : c.1 = a ∨ c ∈ m := by
  induction m with
  | nil =>
    simp only [Mem.setByte] at h
    split_ifs at h <;> simp_all
  | cons d m ih =>
    obtain ⟨k, v⟩ := d
    simp only [Mem.setByte] at h
    split_ifs at h <;> simp only [List.mem_cons] at h ⊢
    · tauto
    · rcases h with rfl | h
      · exact .inl rfl
      · tauto
    · tauto
    · rcases h with rfl | h
      · exact .inl rfl
      · tauto
    · rcases h with rfl | h
      · tauto
      · rcases ih h with h | h <;> tauto

theorem Mem.setByte_wf {m : Mem} (hm : Mem.Wf m) (a : Nat) (b : Byte) :
    Mem.Wf (Mem.setByte m a b) := by
  induction m with
  | nil =>
    simp only [Mem.setByte]
    split_ifs with hb
    · exact hm
    · exact Mem.wf_cons.2 ⟨by simp, hb, hm⟩
  | cons c m ih =>
    obtain ⟨k, v⟩ := c
    obtain ⟨hk, hv, hm'⟩ := Mem.wf_cons.1 hm
    simp only [Mem.setByte]
    split_ifs with h1 h2 h3 h4
    · exact hm
    · refine Mem.wf_cons.2 ⟨fun c hc => ?_, h2, hm⟩
      rcases List.mem_cons.1 hc with rfl | hc
      · exact h1
      · exact lt_trans h1 (hk c hc)
    · exact hm'
    · exact Mem.wf_cons.2 ⟨fun c hc => by rw [h3]; exact hk c hc, h4, hm'⟩
    · refine Mem.wf_cons.2 ⟨fun c hc => ?_, hv, ih hm'⟩
      rcases Mem.key_of_mem_setByte hc with h | h
      · rw [h]; omega
      · exact hk c h

theorem Mem.writeSpan_wf {m : Mem} (hm : Mem.Wf m) (a : Nat) (bs : List Byte) :
    Mem.Wf (Mem.writeSpan m a bs) := by
  induction bs generalizing m a with
  | nil => exact hm
  | cons b bs ih => exact ih (Mem.setByte_wf hm a b) (a + 1)

theorem Mem.key_of_mem_writeSpan {m : Mem} {a : Nat} {bs : List Byte} {c : Host.Cell}
    (h : c ∈ Mem.writeSpan m a bs) : (a ≤ c.1 ∧ c.1 < a + bs.length) ∨ c ∈ m := by
  induction bs generalizing m a with
  | nil => exact .inr h
  | cons b bs ih =>
    simp only [List.length_cons]
    rcases ih h with h | h
    · left; omega
    · rcases Mem.key_of_mem_setByte h with h | h
      · left; omega
      · exact .inr h

theorem Mem.byteAt_writeSpan_outside (m : Mem) {a x : Nat} (bs : List Byte)
    (h : x < a ∨ a + bs.length ≤ x) :
    Mem.byteAt (Mem.writeSpan m a bs) x = Mem.byteAt m x := by
  induction bs generalizing m a with
  | nil => rfl
  | cons b bs ih =>
    simp only [List.length_cons] at h
    rw [Mem.writeSpan, ih _ (by omega), Mem.byteAt_setByte_ne _ _ (by omega)]

theorem Mem.byteAt_writeSpan_inside {m : Mem} (hm : Mem.Wf m) (a : Nat) (bs : List Byte) {k : Nat}
    (h : k < bs.length) :
    Mem.byteAt (Mem.writeSpan m a bs) (a + k) = bs[k] := by
  induction bs generalizing m a k with
  | nil => simp at h
  | cons b bs ih =>
    cases k with
    | zero =>
      rw [Mem.writeSpan, Mem.byteAt_writeSpan_outside _ _ (by omega)]
      simpa using Mem.byteAt_setByte_same hm a b
    | succ k =>
      have := ih (Mem.setByte_wf hm a b) (a + 1) (k := k) (by simpa using h)
      rw [Mem.writeSpan, show a + (k + 1) = a + 1 + k by omega, this]
      simp

@[simp] theorem Mem.readSpan_length (m : Mem) (a n : Nat) : (Mem.readSpan m a n).length = n := by
  induction n generalizing a with
  | zero => rfl
  | succ n ih => simp [Mem.readSpan, ih]

@[simp] theorem Mem.readSpan_getElem (m : Mem) (a n k : Nat) (h : k < (Mem.readSpan m a n).length) :
    (Mem.readSpan m a n)[k] = Mem.byteAt m (a + k) := by
  induction n generalizing a k with
  | zero => simp at h
  | succ n ih =>
    cases k with
    | zero => simp [Mem.readSpan]
    | succ k => simp [Mem.readSpan, ih, Nat.add_comm, Nat.add_left_comm]

theorem Mem.readSpan_congr {m m' : Mem} {a n : Nat}
    (h : ∀ x, a ≤ x → x < a + n → Mem.byteAt m x = Mem.byteAt m' x) :
    Mem.readSpan m a n = Mem.readSpan m' a n :=
  List.ext_getElem (by simp) fun k h1 _ => by
    simp only [Mem.readSpan_length] at h1
    simpa using h (a + k) (by omega) (by omega)

theorem Mem.readSpan_drop (m : Mem) (a n k : Nat) :
    (Mem.readSpan m a n).drop k = Mem.readSpan m (a + k) (n - k) :=
  List.ext_getElem (by simp) fun j _ _ => by simp [Nat.add_assoc]

/-- Reading back what was written, with what stood before it. -/
theorem Mem.readSpan_writeSpan {m : Mem} (hm : Mem.Wf m) (a : Nat) (bs : List Byte) :
    Mem.readSpan (Mem.writeSpan m a bs) 0 (a + bs.length) = Mem.readSpan m 0 a ++ bs :=
  List.ext_getElem (by simp) fun k h1 _ => by
    simp only [Mem.readSpan_length] at h1
    rw [List.getElem_append]
    split
    · rename_i h
      simp only [Mem.readSpan_length] at h
      simp only [Mem.readSpan_getElem, Nat.zero_add]
      exact Mem.byteAt_writeSpan_outside _ _ (.inl h)
    · rename_i h
      simp only [Mem.readSpan_length] at h
      have := Mem.byteAt_writeSpan_inside hm a bs (k := k - a) (by omega)
      rw [show a + (k - a) = k by omega] at this
      simpa using this

/-- The memory of the reset state is in canonical form. -/
theorem State.reset_rxBuf_wf : Mem.Wf State.reset.rxBuf := by decide

end Sys2Proof.Machine
end

