-- ==== Sys2Proof/Laws/Scan.lean ====
section
/-! SUPPORT. What SCAN can answer, said once: no candidate, or the first candidate judged by what
follows it; and the bounds of the offsets it answers with. -/

namespace Sys2Proof.Machine

variable {recog : List (Byte × Byte)}

theorem candidate_zero {m t : Byte} {rest : List Byte} :
    Candidate recog (m :: t :: rest) 0 ↔ (m, t) ∈ recog := by
  simp [Candidate]

theorem candidate_succ {m : Byte} {l : List Byte} {j : Nat} :
    Candidate recog (m :: l) (j + 1) ↔ Candidate recog l j := by
  simp [Candidate]

theorem firstCandidate_zero {m t : Byte} {rest : List Byte} (h : (m, t) ∈ recog) :
    FirstCandidate recog (m :: t :: rest) 0 :=
  ⟨candidate_zero.2 h, fun _ hj => absurd hj (Nat.not_lt_zero _)⟩

theorem firstCandidate_succ {m t : Byte} {rest : List Byte} {j : Nat} (h : (m, t) ∉ recog) :
    FirstCandidate recog (m :: t :: rest) (j + 1) ↔ FirstCandidate recog (t :: rest) j := by
  constructor
  · rintro ⟨hc, hl⟩
    refine ⟨candidate_succ.1 hc, fun k hk hck => hl (k + 1) (by omega) (candidate_succ.2 hck)⟩
  · rintro ⟨hc, hl⟩
    refine ⟨candidate_succ.2 hc, fun k hk hck => ?_⟩
    cases k with
    | zero => exact h (candidate_zero.1 hck)
    | succ k => exact hl k (by omega) (candidate_succ.1 hck)

/-- The first candidate is unique. -/
theorem FirstCandidate.unique {b : List Byte} {i j : Nat} (hi : FirstCandidate recog b i)
    (hj : FirstCandidate recog b j) : i = j := by
  rcases Nat.lt_trichotomy i j with h | h | h
  · exact absurd hi.1 (hj.2 i h)
  · exact h
  · exact absurd hj.1 (hi.2 j h)

/-- The search answers NoFrame when nothing is a candidate, and otherwise judges the first one. -/
theorem scanFrom_cases (recog : List (Byte × Byte)) (i : Nat) (b : List Byte) :
    (scanFrom recog i b = .noFrame ∧ ∀ j, ¬ Candidate recog b j) ∨
    ∃ j, FirstCandidate recog b j ∧
      scanFrom recog i b = classify (i + j) (b.getD (j + 1) 0#8) (b.drop (j + 2)) := by
  induction b generalizing i with
  | nil => exact .inl ⟨rfl, fun j h => by simp [Candidate] at h⟩
  | cons m l ih =>
    cases l with
    | nil => exact .inl ⟨rfl, fun j h => by simp [Candidate] at h⟩
    | cons t rest =>
      by_cases h : (m, t) ∈ recog
      · exact .inr ⟨0, firstCandidate_zero h, by simp [scanFrom, h]⟩
      · have hs : scanFrom recog i (m :: t :: rest) = scanFrom recog (i + 1) (t :: rest) := by
          rw [scanFrom, if_neg h]
        rcases ih (i + 1) with ⟨h1, h2⟩ | ⟨j, h1, h2⟩
        · refine .inl ⟨hs.trans h1, fun j hj => ?_⟩
          cases j with
          | zero => exact h (candidate_zero.1 hj)
          | succ j => exact h2 j (candidate_succ.1 hj)
        · refine .inr ⟨j + 1, (firstCandidate_succ h).2 h1, (hs.trans h2).trans ?_⟩
          rw [show i + 1 + j = i + (j + 1) by omega]
          rfl

/-- With a first candidate at `i`, SCAN judges that one. -/
theorem scanBytes_of_first {b : List Byte} {i : Nat} (h : FirstCandidate recog b i) :
    scanBytes recog b = classify i (b.getD (i + 1) 0#8) (b.drop (i + 2)) := by
  rcases scanFrom_cases recog 0 b with ⟨_, h2⟩ | ⟨j, h1, h2⟩
  · exact absurd h.1 (h2 i)
  · obtain rfl := h1.unique h
    simpa [scanBytes] using h2

theorem scanBytes_of_none {b : List Byte} (h : ∀ j, ¬ Candidate recog b j) :
    scanBytes recog b = .noFrame := by
  rcases scanFrom_cases recog 0 b with ⟨h1, _⟩ | ⟨j, h1, _⟩
  · exact h1
  · exact absurd h1.1 (h j)

/-- A judged candidate is never NoFrame. -/
theorem classify_ne_noFrame (i : Nat) (t : Byte) (rest : List Byte) :
    classify i t rest ≠ .noFrame := by
  unfold classify
  split
  · split
    · simp
    · dsimp only
      split <;> simp
  · simp

/-- A complete candidate: the header, `n` payload bytes and the checksum byte are there. -/
theorem classify_complete (i : Nat) (t sub n : Byte) (body : List Byte)
    (h : n.toNat + 1 ≤ body.length) :
    classify i t (sub :: n :: body) =
      if checksum sub n (body.take n.toNat) = body.getD n.toNat 0#8 then
        .validFrame t sub (body.take n.toNat) (i + n.toNat + 5)
      else .invalidFrame (.checksumMismatch i (checksum sub n (body.take n.toNat))
        (body.getD n.toNat 0#8)) := by
  have h' : ¬ body.length < n.toNat + 1 := by omega
  simp only [classify, if_neg h']

theorem classify_short_body (i : Nat) (t sub n : Byte) (body : List Byte)
    (h : body.length < n.toNat + 1) : classify i t (sub :: n :: body) = .partialFrame := by
  simp only [classify, if_pos h]

theorem classify_short_header (i : Nat) (t : Byte) (rest : List Byte) (h : rest.length < 2) :
    classify i t rest = .partialFrame := by
  match rest, h with
  | [], _ => rfl
  | [_], _ => rfl

/-- What `classify` can answer: partial, or a verdict on a complete candidate of `n + 3` further
bytes. -/
theorem classify_cases (i : Nat) (t : Byte) (rest : List Byte) :
    classify i t rest = .partialFrame ∨
    ∃ sub n body, rest = sub :: n :: body ∧ n.toNat + 1 ≤ body.length ∧
      (classify i t rest = .validFrame t sub (body.take n.toNat) (i + n.toNat + 5) ∨
       classify i t rest = .invalidFrame (.checksumMismatch i (checksum sub n (body.take n.toNat))
        (body.getD n.toNat 0#8))) := by
  rcases rest with _ | ⟨sub, _ | ⟨n, body⟩⟩
  · exact .inl rfl
  · exact .inl rfl
  · by_cases h : body.length < n.toNat + 1
    · exact .inl (classify_short_body i t sub n body h)
    · refine .inr ⟨sub, n, body, rfl, by omega, ?_⟩
      rw [classify_complete i t sub n body (by omega)]
      split
      · exact .inl rfl
      · exact .inr rfl

/-- The bytes a ValidFrame consumes are all in the sequence, and at least five. -/
theorem scanBytes_valid_bounds {b : List Byte} {t sub : Byte} {p : List Byte} {c : Nat}
    (h : scanBytes recog b = .validFrame t sub p c) : 5 ≤ c ∧ c ≤ b.length := by
  rcases scanFrom_cases recog 0 b with ⟨h1, _⟩ | ⟨j, h1, h2⟩
  · rw [scanBytes, h1] at h; cases h
  · rw [scanBytes, h2] at h
    rcases classify_cases (0 + j) (b.getD (j + 1) 0#8) (b.drop (j + 2)) with
      hp | ⟨sub', n, body, hr, hn, hv | hv⟩
    · rw [hp] at h; cases h
    · rw [hv] at h
      have hl := congrArg List.length hr
      simp only [List.length_drop, List.length_cons] at hl
      simp only [ScanResult.validFrame.injEq] at h
      omega
    · rw [hv] at h; cases h

/-- The candidate an InvalidFrame names has all its bytes in the sequence. -/
theorem scanBytes_invalid_bounds {b : List Byte} {i : Nat} {e a : Byte}
    (h : scanBytes recog b = .invalidFrame (.checksumMismatch i e a)) : i + 5 ≤ b.length := by
  rcases scanFrom_cases recog 0 b with ⟨h1, _⟩ | ⟨j, h1, h2⟩
  · rw [scanBytes, h1] at h; cases h
  · rw [scanBytes, h2] at h
    rcases classify_cases (0 + j) (b.getD (j + 1) 0#8) (b.drop (j + 2)) with
      hp | ⟨sub', n, body, hr, hn, hv | hv⟩
    · rw [hp] at h; cases h
    · rw [hv] at h; cases h
    · rw [hv] at h
      have hl := congrArg List.length hr
      simp only [List.length_drop, List.length_cons] at hl
      simp only [ScanResult.invalidFrame.injEq, InvalidReason.checksumMismatch.injEq] at h
      omega

end Sys2Proof.Machine
end

