-- ==== Sys2Proof/Laws/State.lean ====
section
/-! SUPPORT. One lemma per field per update of State, so that no proof unfolds a record update. -/

namespace Sys2Proof.Machine

@[simp] theorem State.setRxLen_cfg (s : State) (v : Nat) : (s.setRxLen v).cfg = s.cfg := rfl
@[simp] theorem State.setRxLen_rxBuf (s : State) (v : Nat) : (s.setRxLen v).rxBuf = s.rxBuf := rfl
@[simp] theorem State.setRxLen_rxLen (s : State) (v : Nat) : (s.setRxLen v).rxLen = v := rfl
@[simp] theorem State.setRxLen_results (s : State) (v : Nat) : (s.setRxLen v).results = s.results := rfl
@[simp] theorem State.setRxLen_phase (s : State) (v : Nat) : (s.setRxLen v).phase = s.phase := rfl
@[simp] theorem State.setRxLen_pendingRequest (s : State) (v : Nat) : (s.setRxLen v).pendingRequest = s.pendingRequest := rfl
@[simp] theorem State.setRxLen_incoming (s : State) (v : Nat) : (s.setRxLen v).incoming = s.incoming := rfl
@[simp] theorem State.setRxLen_outgoing (s : State) (v : Nat) : (s.setRxLen v).outgoing = s.outgoing := rfl
@[simp] theorem State.setRxLen_events (s : State) (v : Nat) : (s.setRxLen v).events = s.events := rfl
@[simp] theorem State.setRxLen_pending (s : State) (v : Nat) : (s.setRxLen v).pending = s.pending := rfl

@[simp] theorem State.emptyBuffer_cfg (s : State) : (s.emptyBuffer).cfg = s.cfg := rfl
@[simp] theorem State.emptyBuffer_rxBuf (s : State) : (s.emptyBuffer).rxBuf = s.rxBuf := rfl
@[simp] theorem State.emptyBuffer_rxLen (s : State) : (s.emptyBuffer).rxLen = 0 := rfl
@[simp] theorem State.emptyBuffer_results (s : State) : (s.emptyBuffer).results = s.results := rfl
@[simp] theorem State.emptyBuffer_phase (s : State) : (s.emptyBuffer).phase = s.phase := rfl
@[simp] theorem State.emptyBuffer_pendingRequest (s : State) : (s.emptyBuffer).pendingRequest = s.pendingRequest := rfl
@[simp] theorem State.emptyBuffer_incoming (s : State) : (s.emptyBuffer).incoming = s.incoming := rfl
@[simp] theorem State.emptyBuffer_outgoing (s : State) : (s.emptyBuffer).outgoing = s.outgoing := rfl
@[simp] theorem State.emptyBuffer_events (s : State) : (s.emptyBuffer).events = s.events := rfl
@[simp] theorem State.emptyBuffer_pending (s : State) : (s.emptyBuffer).pending = s.pending := rfl

@[simp] theorem State.record_cfg (s : State) (r : Result) : (s.record r).cfg = s.cfg := rfl
@[simp] theorem State.record_rxBuf (s : State) (r : Result) : (s.record r).rxBuf = s.rxBuf := rfl
@[simp] theorem State.record_rxLen (s : State) (r : Result) : (s.record r).rxLen = s.rxLen := rfl
@[simp] theorem State.record_results (s : State) (r : Result) : (s.record r).results = s.results ++ [r] := rfl
@[simp] theorem State.record_phase (s : State) (r : Result) : (s.record r).phase = s.phase := rfl
@[simp] theorem State.record_pendingRequest (s : State) (r : Result) : (s.record r).pendingRequest = s.pendingRequest := rfl
@[simp] theorem State.record_incoming (s : State) (r : Result) : (s.record r).incoming = s.incoming := rfl
@[simp] theorem State.record_outgoing (s : State) (r : Result) : (s.record r).outgoing = s.outgoing := rfl
@[simp] theorem State.record_events (s : State) (r : Result) : (s.record r).events = s.events := rfl
@[simp] theorem State.record_pending (s : State) (r : Result) : (s.record r).pending = s.pending := rfl
@[simp] theorem State.record_contents (s : State) (r : Result) : (s.record r).contents = s.contents := rfl

@[simp] theorem State.raise_cfg (s : State) (x : Exceptional) : (s.raise x).cfg = s.cfg := rfl
@[simp] theorem State.raise_rxBuf (s : State) (x : Exceptional) : (s.raise x).rxBuf = s.rxBuf := rfl
@[simp] theorem State.raise_rxLen (s : State) (x : Exceptional) : (s.raise x).rxLen = s.rxLen := rfl
@[simp] theorem State.raise_results (s : State) (x : Exceptional) : (s.raise x).results = s.results ++ [.raised x] := rfl
@[simp] theorem State.raise_phase (s : State) (x : Exceptional) : (s.raise x).phase = s.phase := rfl
@[simp] theorem State.raise_pendingRequest (s : State) (x : Exceptional) : (s.raise x).pendingRequest = s.pendingRequest := rfl
@[simp] theorem State.raise_incoming (s : State) (x : Exceptional) : (s.raise x).incoming = s.incoming := rfl
@[simp] theorem State.raise_outgoing (s : State) (x : Exceptional) : (s.raise x).outgoing = s.outgoing := rfl
@[simp] theorem State.raise_events (s : State) (x : Exceptional) : (s.raise x).events = s.events := rfl
@[simp] theorem State.raise_pending (s : State) (x : Exceptional) : (s.raise x).pending = s.pending := rfl
@[simp] theorem State.raise_contents (s : State) (x : Exceptional) : (s.raise x).contents = s.contents := rfl

@[simp] theorem State.transmit_cfg (s : State) (bs : List Byte) : (s.transmit bs).cfg = s.cfg := rfl
@[simp] theorem State.transmit_rxBuf (s : State) (bs : List Byte) : (s.transmit bs).rxBuf = s.rxBuf := rfl
@[simp] theorem State.transmit_rxLen (s : State) (bs : List Byte) : (s.transmit bs).rxLen = s.rxLen := rfl
@[simp] theorem State.transmit_results (s : State) (bs : List Byte) : (s.transmit bs).results = s.results := rfl
@[simp] theorem State.transmit_phase (s : State) (bs : List Byte) : (s.transmit bs).phase = s.phase := rfl
@[simp] theorem State.transmit_pendingRequest (s : State) (bs : List Byte) : (s.transmit bs).pendingRequest = s.pendingRequest := rfl
@[simp] theorem State.transmit_incoming (s : State) (bs : List Byte) : (s.transmit bs).incoming = s.incoming := rfl
@[simp] theorem State.transmit_outgoing (s : State) (bs : List Byte) : (s.transmit bs).outgoing = s.outgoing ++ bs := rfl
@[simp] theorem State.transmit_events (s : State) (bs : List Byte) : (s.transmit bs).events = s.events := rfl
@[simp] theorem State.transmit_pending (s : State) (bs : List Byte) : (s.transmit bs).pending = s.pending := rfl
@[simp] theorem State.transmit_contents (s : State) (bs : List Byte) : (s.transmit bs).contents = s.contents := rfl

@[simp] theorem State.arrive_cfg (s : State) (bs : List Byte) : (s.arrive bs).cfg = s.cfg := rfl
@[simp] theorem State.arrive_rxBuf (s : State) (bs : List Byte) : (s.arrive bs).rxBuf = s.rxBuf := rfl
@[simp] theorem State.arrive_rxLen (s : State) (bs : List Byte) : (s.arrive bs).rxLen = s.rxLen := rfl
@[simp] theorem State.arrive_results (s : State) (bs : List Byte) : (s.arrive bs).results = s.results := rfl
@[simp] theorem State.arrive_phase (s : State) (bs : List Byte) : (s.arrive bs).phase = s.phase := rfl
@[simp] theorem State.arrive_pendingRequest (s : State) (bs : List Byte) : (s.arrive bs).pendingRequest = s.pendingRequest := rfl
@[simp] theorem State.arrive_incoming (s : State) (bs : List Byte) : (s.arrive bs).incoming = s.incoming ++ bs := rfl
@[simp] theorem State.arrive_outgoing (s : State) (bs : List Byte) : (s.arrive bs).outgoing = s.outgoing := rfl
@[simp] theorem State.arrive_events (s : State) (bs : List Byte) : (s.arrive bs).events = s.events := rfl
@[simp] theorem State.arrive_pending (s : State) (bs : List Byte) : (s.arrive bs).pending = s.pending := rfl
@[simp] theorem State.arrive_contents (s : State) (bs : List Byte) : (s.arrive bs).contents = s.contents := rfl

@[simp] theorem State.dropIncoming_cfg (s : State) (n : Nat) : (s.dropIncoming n).cfg = s.cfg := rfl
@[simp] theorem State.dropIncoming_rxBuf (s : State) (n : Nat) : (s.dropIncoming n).rxBuf = s.rxBuf := rfl
@[simp] theorem State.dropIncoming_rxLen (s : State) (n : Nat) : (s.dropIncoming n).rxLen = s.rxLen := rfl
@[simp] theorem State.dropIncoming_results (s : State) (n : Nat) : (s.dropIncoming n).results = s.results := rfl
@[simp] theorem State.dropIncoming_phase (s : State) (n : Nat) : (s.dropIncoming n).phase = s.phase := rfl
@[simp] theorem State.dropIncoming_pendingRequest (s : State) (n : Nat) : (s.dropIncoming n).pendingRequest = s.pendingRequest := rfl
@[simp] theorem State.dropIncoming_incoming (s : State) (n : Nat) : (s.dropIncoming n).incoming = s.incoming.drop n := rfl
@[simp] theorem State.dropIncoming_outgoing (s : State) (n : Nat) : (s.dropIncoming n).outgoing = s.outgoing := rfl
@[simp] theorem State.dropIncoming_events (s : State) (n : Nat) : (s.dropIncoming n).events = s.events := rfl
@[simp] theorem State.dropIncoming_pending (s : State) (n : Nat) : (s.dropIncoming n).pending = s.pending := rfl
@[simp] theorem State.dropIncoming_contents (s : State) (n : Nat) : (s.dropIncoming n).contents = s.contents := rfl

@[simp] theorem State.emit_cfg (s : State) (e : Event) : (s.emit e).cfg = s.cfg := rfl
@[simp] theorem State.emit_rxBuf (s : State) (e : Event) : (s.emit e).rxBuf = s.rxBuf := rfl
@[simp] theorem State.emit_rxLen (s : State) (e : Event) : (s.emit e).rxLen = s.rxLen := rfl
@[simp] theorem State.emit_results (s : State) (e : Event) : (s.emit e).results = s.results := rfl
@[simp] theorem State.emit_phase (s : State) (e : Event) : (s.emit e).phase = s.phase := rfl
@[simp] theorem State.emit_pendingRequest (s : State) (e : Event) : (s.emit e).pendingRequest = s.pendingRequest := rfl
@[simp] theorem State.emit_incoming (s : State) (e : Event) : (s.emit e).incoming = s.incoming := rfl
@[simp] theorem State.emit_outgoing (s : State) (e : Event) : (s.emit e).outgoing = s.outgoing := rfl
@[simp] theorem State.emit_events (s : State) (e : Event) : (s.emit e).events = s.events ++ [e] := rfl
@[simp] theorem State.emit_pending (s : State) (e : Event) : (s.emit e).pending = s.pending := rfl
@[simp] theorem State.emit_contents (s : State) (e : Event) : (s.emit e).contents = s.contents := rfl

@[simp] theorem State.setHost_cfg (s : State) (ph : HostPhase) (fl : Bool) : (s.setHost ph fl).cfg = s.cfg := rfl
@[simp] theorem State.setHost_rxBuf (s : State) (ph : HostPhase) (fl : Bool) : (s.setHost ph fl).rxBuf = s.rxBuf := rfl
@[simp] theorem State.setHost_rxLen (s : State) (ph : HostPhase) (fl : Bool) : (s.setHost ph fl).rxLen = s.rxLen := rfl
@[simp] theorem State.setHost_results (s : State) (ph : HostPhase) (fl : Bool) : (s.setHost ph fl).results = s.results := rfl
@[simp] theorem State.setHost_phase (s : State) (ph : HostPhase) (fl : Bool) : (s.setHost ph fl).phase = ph := rfl
@[simp] theorem State.setHost_pendingRequest (s : State) (ph : HostPhase) (fl : Bool) : (s.setHost ph fl).pendingRequest = fl := rfl
@[simp] theorem State.setHost_incoming (s : State) (ph : HostPhase) (fl : Bool) : (s.setHost ph fl).incoming = s.incoming := rfl
@[simp] theorem State.setHost_outgoing (s : State) (ph : HostPhase) (fl : Bool) : (s.setHost ph fl).outgoing = s.outgoing := rfl
@[simp] theorem State.setHost_events (s : State) (ph : HostPhase) (fl : Bool) : (s.setHost ph fl).events = s.events := rfl
@[simp] theorem State.setHost_pending (s : State) (ph : HostPhase) (fl : Bool) : (s.setHost ph fl).pending = s.pending := rfl
@[simp] theorem State.setHost_contents (s : State) (ph : HostPhase) (fl : Bool) : (s.setHost ph fl).contents = s.contents := rfl

@[simp] theorem State.setPending_cfg (s : State) (p : List Stimulus) : (s.setPending p).cfg = s.cfg := rfl
@[simp] theorem State.setPending_rxBuf (s : State) (p : List Stimulus) : (s.setPending p).rxBuf = s.rxBuf := rfl
@[simp] theorem State.setPending_rxLen (s : State) (p : List Stimulus) : (s.setPending p).rxLen = s.rxLen := rfl
@[simp] theorem State.setPending_results (s : State) (p : List Stimulus) : (s.setPending p).results = s.results := rfl
@[simp] theorem State.setPending_phase (s : State) (p : List Stimulus) : (s.setPending p).phase = s.phase := rfl
@[simp] theorem State.setPending_pendingRequest (s : State) (p : List Stimulus) : (s.setPending p).pendingRequest = s.pendingRequest := rfl
@[simp] theorem State.setPending_incoming (s : State) (p : List Stimulus) : (s.setPending p).incoming = s.incoming := rfl
@[simp] theorem State.setPending_outgoing (s : State) (p : List Stimulus) : (s.setPending p).outgoing = s.outgoing := rfl
@[simp] theorem State.setPending_events (s : State) (p : List Stimulus) : (s.setPending p).events = s.events := rfl
@[simp] theorem State.setPending_pending (s : State) (p : List Stimulus) : (s.setPending p).pending = p := rfl
@[simp] theorem State.setPending_contents (s : State) (p : List Stimulus) : (s.setPending p).contents = s.contents := rfl

@[simp] theorem State.emptyBuffer_contents (s : State) : s.emptyBuffer.contents = [] := rfl

end Sys2Proof.Machine
end

