-- ==== Sys2Proof/Laws/Ops.lean ====
section
/-! SUPPORT. One lemma per shared operation that says everything it can do: MemRead, MemWrite, compact,
APPEND, EXTRACT. -/

namespace Sys2Proof.Machine

theorem State.memRead_eq {s : State} {a n : Nat} (h1 : a + n ≤ s.rxLen)
    (h2 : a + n ≤ s.cfg.capacity) : s.memRead a n = .ok (Mem.readSpan s.rxBuf a n) := by
  rw [State.memRead, if_pos ⟨h1, h2⟩]

theorem State.memWrite_eq {s : State} {a : Nat} {v : List Byte}
    (h : a + v.length ≤ s.cfg.capacity) :
    s.memWrite a v = .ok { s with rxBuf := Mem.writeSpan s.rxBuf a v } := by
  rw [State.memWrite, if_pos h]

theorem maxOcc_le (c : Config) : c.maxOcc ≤ c.capacity := Nat.sub_le _ _

@[simp] theorem State.contents_length (s : State) : s.contents.length = s.rxLen :=
  Mem.readSpan_length _ _ _

/-- The state `compact k` leaves. -/
def State.compacted (s : State) (k : Nat) : State :=
  { s with
    rxBuf := Mem.writeSpan s.rxBuf 0 (Mem.readSpan s.rxBuf k (s.rxLen - k))
    rxLen := s.rxLen - k }

theorem State.compact_eq {s : State} {k : Nat} (hk : k ≤ s.rxLen)
    (hc : s.rxLen ≤ s.cfg.capacity) : s.compact k = .ok (s.compacted k) := by
  rw [State.compact, State.memRead_eq (by omega) (by omega)]
  dsimp only
  rw [State.memWrite_eq (by rw [Mem.readSpan_length]; omega)]
  rfl

@[simp] theorem State.compacted_rxLen (s : State) (k : Nat) :
    (s.compacted k).rxLen = s.rxLen - k := rfl
@[simp] theorem State.compacted_cfg (s : State) (k : Nat) : (s.compacted k).cfg = s.cfg := rfl
@[simp] theorem State.compacted_results (s : State) (k : Nat) :
    (s.compacted k).results = s.results := rfl

theorem State.compacted_sameOutside (s : State) (k : Nat) : s.SameOutside (s.compacted k) :=
  ⟨rfl, rfl, rfl, rfl, rfl, rfl, rfl⟩

theorem State.compacted_wf {s : State} (h : Mem.Wf s.rxBuf) (k : Nat) :
    Mem.Wf (s.compacted k).rxBuf := Mem.writeSpan_wf h _ _

/-- Compaction drops the first `k` bytes (R129). -/
theorem State.compacted_contents {s : State} (h : Mem.Wf s.rxBuf) (k : Nat) :
    (s.compacted k).contents = s.contents.drop k := by
  have := Mem.readSpan_writeSpan h 0 (Mem.readSpan s.rxBuf k (s.rxLen - k))
  simp only [Mem.readSpan_length, Nat.zero_add] at this
  rw [State.contents, State.contents, Mem.readSpan_drop, Nat.zero_add]
  exact this

/-- Bytes at and above the new length keep the values they had. -/
theorem State.compacted_above (s : State) {k a : Nat} (h : s.rxLen - k ≤ a) :
    Mem.byteAt (s.compacted k).rxBuf a = Mem.byteAt s.rxBuf a :=
  Mem.byteAt_writeSpan_outside _ _ (.inr (by rw [Mem.readSpan_length]; omega))

/-- The state a fitting APPEND leaves, its result not yet recorded. -/
def State.appended (s : State) (chunk : List Byte) : State :=
  { s with rxBuf := Mem.writeSpan s.rxBuf s.rxLen chunk, rxLen := s.rxLen + chunk.length }

theorem State.appendOp_fits {s : State} {chunk : List Byte}
    (h : s.rxLen + chunk.length ≤ s.cfg.maxOcc) :
    s.appendOp chunk = .ok ((s.appended chunk).record .ok, .ok) := by
  have := maxOcc_le s.cfg
  rw [State.appendOp, if_pos h, State.memWrite_eq (by omega)]
  rfl

theorem State.appendOp_overflows {s : State} {chunk : List Byte}
    (h : s.cfg.maxOcc < s.rxLen + chunk.length) :
    s.appendOp chunk = .ok (s.emptyBuffer.raise .overflow, .raised .overflow) := by
  rw [State.appendOp, if_neg (by omega)]

/-- APPEND has two outcomes and no fault. -/
theorem State.appendOp_cases (s : State) (chunk : List Byte) :
    (s.rxLen + chunk.length ≤ s.cfg.maxOcc ∧
      s.appendOp chunk = .ok ((s.appended chunk).record .ok, .ok)) ∨
    (s.cfg.maxOcc < s.rxLen + chunk.length ∧
      s.appendOp chunk = .ok (s.emptyBuffer.raise .overflow, .raised .overflow)) := by
  rcases Nat.lt_or_ge s.cfg.maxOcc (s.rxLen + chunk.length) with h | h
  · exact .inr ⟨h, State.appendOp_overflows h⟩
  · exact .inl ⟨h, State.appendOp_fits h⟩

theorem State.appended_contents {s : State} (h : Mem.Wf s.rxBuf) (chunk : List Byte) :
    (s.appended chunk).contents = s.contents ++ chunk :=
  Mem.readSpan_writeSpan h s.rxLen chunk

/-- EXTRACT's outcome is decided by one SCAN of the occupied bytes (R125). -/
theorem State.extractOp_eq {s : State} (h : s.rxLen ≤ s.cfg.capacity) :
    s.extractOp =
      match scanBytes s.cfg.recog s.contents with
      | .validFrame t sub p c => .ok ((s.compacted c).record (.frame t sub p c), .frame t sub p c)
      | .invalidFrame (.checksumMismatch i e a) =>
        .ok ((s.compacted (i + 1)).raise (.corrupt e a), .raised (.corrupt e a))
      | .partialFrame => .ok (s.record .awaiting, .awaiting)
      | .noFrame => .ok (s.record .empty, .empty) := by
  rw [State.extractOp, State.memRead_eq (by omega) (by omega)]
  change (match scanBytes s.cfg.recog s.contents with
      | .validFrame t sub p c => _
      | .invalidFrame (.checksumMismatch i e a) => _
      | .partialFrame => _
      | .noFrame => _) = _
  rcases hr : scanBytes s.cfg.recog s.contents with _ | _ | ⟨⟨i, e, a⟩⟩ | ⟨t, sub, p, c⟩
  · rfl
  · rfl
  · have := scanBytes_invalid_bounds hr
    rw [State.contents_length] at this
    dsimp only
    rw [State.compact_eq (by omega) h]
  · have := scanBytes_valid_bounds hr
    rw [State.contents_length] at this
    dsimp only
    rw [State.compact_eq (by omega) h]

/-- What EXTRACT can do, from a state whose length is in range. -/
theorem State.extractOp_cases {s : State} (h : s.rxLen ≤ s.cfg.capacity) :
    (∃ t sub p c, scanBytes s.cfg.recog s.contents = .validFrame t sub p c ∧ 5 ≤ c ∧ c ≤ s.rxLen ∧
      s.extractOp = .ok ((s.compacted c).record (.frame t sub p c), .frame t sub p c)) ∨
    (∃ i e a, scanBytes s.cfg.recog s.contents = .invalidFrame (.checksumMismatch i e a) ∧
      i + 5 ≤ s.rxLen ∧
      s.extractOp = .ok ((s.compacted (i + 1)).raise (.corrupt e a), .raised (.corrupt e a))) ∨
    (scanBytes s.cfg.recog s.contents = .partialFrame ∧
      s.extractOp = .ok (s.record .awaiting, .awaiting)) ∨
    (scanBytes s.cfg.recog s.contents = .noFrame ∧
      s.extractOp = .ok (s.record .empty, .empty)) := by
  have he := State.extractOp_eq h
  rcases hr : scanBytes s.cfg.recog s.contents with _ | _ | ⟨⟨i, e, a⟩⟩ | ⟨t, sub, p, c⟩ <;>
    rw [hr] at he
  · exact .inr (.inr (.inr ⟨rfl, he⟩))
  · exact .inr (.inr (.inl ⟨rfl, he⟩))
  · have := scanBytes_invalid_bounds hr
    rw [State.contents_length] at this
    exact .inr (.inl ⟨i, e, a, rfl, this, he⟩)
  · have := scanBytes_valid_bounds hr
    rw [State.contents_length] at this
    exact .inl ⟨t, sub, p, c, rfl, this.1, this.2, he⟩

/-- EXTRACT faults exactly when the length leaves the array. -/
theorem State.extractOp_fault {s : State} (h : s.cfg.capacity < s.rxLen) :
    s.extractOp = .error (.outsideBuffer (0 + s.rxLen)) := by
  have h' : ¬ (0 + s.rxLen ≤ s.rxLen ∧ 0 + s.rxLen ≤ s.cfg.capacity) := by omega
  rw [State.extractOp, State.memRead, if_neg h']

theorem State.rxLen_le_of_extractOp {s : State} {x : State × Result} (h : s.extractOp = .ok x) :
    s.rxLen ≤ s.cfg.capacity := by
  by_contra hc
  rw [State.extractOp_fault (by omega)] at h
  cases h

/-- APPEND touches nothing but the buffer, its length and the results, and records its result. -/
theorem State.appendOp_frame {s t : State} {chunk : List Byte} {r : Result}
    (h : s.appendOp chunk = .ok (t, r)) : s.SameOutside t ∧ t.results = s.results ++ [r] := by
  rcases s.appendOp_cases chunk with ⟨_, he⟩ | ⟨_, he⟩ <;> rw [he] at h <;> cases h <;>
    exact ⟨⟨rfl, rfl, rfl, rfl, rfl, rfl, rfl⟩, rfl⟩

/-- EXTRACT touches nothing but the buffer, its length and the results, and records its result. -/
theorem State.extractOp_frame {s t : State} {r : Result} (h : s.extractOp = .ok (t, r)) :
    s.SameOutside t ∧ t.results = s.results ++ [r] := by
  rcases State.extractOp_cases (State.rxLen_le_of_extractOp h) with
    ⟨_, _, _, _, _, _, _, he⟩ | ⟨_, _, _, _, _, he⟩ | ⟨_, he⟩ | ⟨_, he⟩ <;>
    rw [he] at h <;> cases h <;> exact ⟨⟨rfl, rfl, rfl, rfl, rfl, rfl, rfl⟩, rfl⟩

end Sys2Proof.Machine
end

