-- ==== Sys2Proof/Laws/PerInstr.lean ====
section
/-! SUPPORT. Statements made per instruction. `OpcodeBits`: the encoder puts into the bits the opcode
table fixes exactly the value of the table's "match" column. -/

namespace Sys2Proof.Laws.OpcodeBits

/-- The encoding of `i` carries its row's match value in the row's fixed bits. -/
def Statement (i : Instr) : Prop := selectBits (Sys2Proof.encode i) = some (tableMatch i)

theorem encode (m t s : Byte) (p : List Byte) : Statement (.encode m t s p) := rfl

theorem scan (b : List Byte) : Statement (.scan b) := rfl

theorem append (c : List Byte) : Statement (.append c) := rfl

theorem extract : Statement .extract := rfl

theorem clear : Statement .clear := rfl

theorem reserved5 (ops : List CmdWord) : Statement (.reserved5 ops) := rfl

theorem reserved6 (ops : List CmdWord) : Statement (.reserved6 ops) := rfl

theorem reserved7 (ops : List CmdWord) : Statement (.reserved7 ops) := rfl

theorem frameRxGetAll (s : Byte) (p : List Byte) (c : Byte) : Statement (.frameRxGetAll s p c) := rfl

theorem frameTxGetAll (s : Byte) (p : List Byte) (c : Byte) : Statement (.frameTxGetAll s p c) := rfl

theorem frameTxControl (s : Byte) (p : List Byte) (c : Byte) : Statement (.frameTxControl s p c) := rfl

end Sys2Proof.Laws.OpcodeBits
end

