-- ==== Sys2Proof/Laws/Step.lean ====
section
/-! SUPPORT. What a step can do to the state, said once: it is a chain of primitive moves. A property
that every primitive move keeps is kept by every step. -/

namespace Sys2Proof.Machine

/-- The primitive moves, each with the condition under which the machine makes it, and their chains. -/
inductive Move : State → State → Prop
  | refl (s : State) : Move s s
  | trans {s t u : State} : Move s t → Move t u → Move s u
  | record (s : State) (r : Result) : Move s (s.record r)
  | compacted (s : State) (k : Nat) (h : k ≤ s.rxLen) : Move s (s.compacted k)
  | appended (s : State) (chunk : List Byte) (h : s.rxLen + chunk.length ≤ s.cfg.maxOcc) :
      Move s (s.appended chunk)
  | emptyBuffer (s : State) : Move s s.emptyBuffer
  | transmit (s : State) (bs : List Byte) : Move s (s.transmit bs)
  | arrive (s : State) (bs : List Byte) : Move s (s.arrive bs)
  | dropIncoming (s : State) (n : Nat) : Move s (s.dropIncoming n)
  | emit (s : State) (e : Event) : Move s (s.emit e)
  | setHost (s : State) (ph : HostPhase) (fl : Bool) : Move s (s.setHost ph fl)
  | setPending (s : State) (p : List Stimulus) : Move s (s.setPending p)

theorem Move.raise (s : State) (x : Exceptional) : Move s (s.raise x) := .record s _

theorem State.encodeOp_move (s : State) (m t sub : Byte) (p : List Byte) :
    Move s (s.encodeOp m t sub p).1 := by
  unfold State.encodeOp
  split
  · exact .record s _
  · exact .raise s _

theorem State.appendOp_move {s t : State} {chunk : List Byte} {r : Result}
    (h : s.appendOp chunk = .ok (t, r)) : Move s t := by
  rcases s.appendOp_cases chunk with ⟨hf, he⟩ | ⟨_, he⟩ <;> rw [he] at h <;> cases h
  · exact (Move.appended s chunk hf).trans (.record _ _)
  · exact (Move.emptyBuffer s).trans (.raise _ _)

theorem State.extractOp_move {s t : State} {r : Result} (h : s.extractOp = .ok (t, r)) :
    Move s t := by
  rcases State.extractOp_cases (State.rxLen_le_of_extractOp h) with
    ⟨_, _, _, c, _, _, hc, he⟩ | ⟨i, _, _, _, hi, he⟩ | ⟨_, he⟩ | ⟨_, he⟩ <;>
    rw [he] at h <;> cases h
  · exact (Move.compacted s c hc).trans (.record _ _)
  · exact (Move.compacted s (i + 1) (by omega)).trans (.raise _ _)
  · exact .record s _
  · exact .record s _

theorem exec_move {i : Instr} {s t : State} (h : exec i s = .next t) : Move s t := by
  cases i with
  | encode m ty sub p => cases h; exact s.encodeOp_move m ty sub p
  | scan b => cases h; exact .record s _
  | append chunk =>
    simp only [exec, execAppend] at h
    rcases ha : s.appendOp chunk with f | ⟨u, r⟩ <;> rw [ha] at h <;> cases h
    exact State.appendOp_move ha
  | extract =>
    simp only [exec, execExtract] at h
    rcases ha : s.extractOp with f | ⟨u, r⟩ <;> rw [ha] at h <;> cases h
    exact State.extractOp_move ha
  | clear => cases h; exact (Move.emptyBuffer s).trans (.record _ _)
  | reserved5 ops => cases h; exact .raise s _
  | reserved6 ops => cases h; exact .raise s _
  | reserved7 ops => cases h; exact .raise s _
  | frameRxGetAll sub p c => cases h; exact .arrive s _
  | frameTxGetAll sub p c => cases h; exact .transmit s _
  | frameTxControl sub p c => cases h; exact .transmit s _

theorem State.clearOp_move (s : State) : Move s s.clearOp :=
  (Move.emptyBuffer s).trans (.record _ _)

theorem State.sendFrame_move (s : State) (t sub : Byte) (p : List Byte) :
    Move s (s.sendFrame t sub p) := by
  have h := s.encodeOp_move Config.txMarker t sub p
  unfold State.sendFrame
  rcases he : s.encodeOp Config.txMarker t sub p with ⟨u, _ | f⟩ <;> rw [he] at h
  · exact h
  · exact h.trans (.transmit u f)

theorem State.sendRequest_move (s : State) (p : List Byte) : Move s (s.sendRequest p) :=
  (s.sendFrame_move _ _ _).trans (.setHost _ _ _)

theorem State.surface_move (s : State) (report : Bool) (e a : Byte) :
    Move s (s.surface report e a) := by
  unfold State.surface
  split
  · exact .emit _ _
  · exact .refl _

/-- The cases of what follows one EXTRACT of a tick. -/
theorem afterExtract_cases {s u : State} {report : Bool}
    {next : State → Host.Outcome State Fault Refusal}
    (h : afterExtract s.extractOp report next = .next u) :
    (∃ t ty sub p c, s.extractOp = .ok (t, .frame ty sub p c) ∧ u = t.deliver sub p) ∨
    (∃ t e a, s.extractOp = .ok (t, .raised (.corrupt e a)) ∧
      next (t.surface report e a) = .next u) ∨
    (s.extractOp = .ok (u, .awaiting)) ∨ (s.extractOp = .ok (u, .empty)) := by
  rcases hx : s.extractOp with f | x
  · rw [hx] at h; cases h
  · rcases State.extractOp_cases (State.rxLen_le_of_extractOp hx) with
      ⟨ty, sub, p, c, _, _, _, he⟩ | ⟨i, e, a, _, _, he⟩ | ⟨_, he⟩ | ⟨_, he⟩ <;>
      rw [hx] at he h <;> cases he
    · cases h; exact .inl ⟨_, ty, sub, p, c, rfl, rfl⟩
    · exact .inr (.inl ⟨_, e, a, rfl, h⟩)
    · cases h; exact .inr (.inr (.inl rfl))
    · cases h; exact .inr (.inr (.inr rfl))

theorem afterExtract_move {s u : State} {report : Bool}
    {next : State → Host.Outcome State Fault Refusal}
    (hn : ∀ {t}, next t = .next u → Move t u)
    (h : afterExtract s.extractOp report next = .next u) : Move s u := by
  rcases afterExtract_cases h with ⟨t, _, _, _, _, hx, rfl⟩ | ⟨t, e, a, hx, hu⟩ | hx | hx
  · exact (State.extractOp_move hx).trans ((Move.emit _ _).trans (.setHost _ _ _))
  · exact (State.extractOp_move hx).trans ((t.surface_move report e a).trans (hn hu))
  · exact State.extractOp_move hx
  · exact State.extractOp_move hx

theorem pollExtract_move {goOn : List Bool} {report : Bool} {s u : State}
    (h : pollExtract report goOn s = .next u) : Move s u := by
  induction goOn generalizing report s with
  | nil => exact afterExtract_move (fun ht => by cases ht; exact .refl _) h
  | cons again more ih => exact afterExtract_move (fun ht => ih ht) h

/-- What the EXTRACTs of one tick did: nothing to the transport; and either no Frame came and the host
stands as it did, or the last one was a Frame, delivered. Every other event is a ChecksumError. -/
def State.Polled (s u : State) (rs : List Result) : Prop :=
  u.outgoing = s.outgoing ∧ u.incoming = s.incoming ∧ u.results = s.results ++ rs ∧
  ((∃ es, (∀ t sub p c, Result.frame t sub p c ∉ rs) ∧ u.phase = s.phase ∧
      u.pendingRequest = s.pendingRequest ∧ u.events = s.events ++ es ∧
      (∀ x ∈ es, ∃ e a, x = .checksumError e a)) ∨
   (∃ rs' t sub p c es, rs = rs' ++ [.frame t sub p c] ∧
      (∀ t sub p c, Result.frame t sub p c ∉ rs') ∧ u.phase = .awaitingRequest ∧
      u.pendingRequest = false ∧
      u.events = s.events ++ es ++ [.statusUpdated (decodeStatus sub p)] ∧
      (∀ x ∈ es, ∃ e a, x = .checksumError e a)))

theorem State.Polled.refl (s : State) : s.Polled s [] :=
  ⟨rfl, rfl, by simp, .inl ⟨[], by simp, rfl, rfl, by simp, by simp⟩⟩

/-- An EXTRACT without a Frame in front. -/
theorem State.Polled.cons {s t u : State} {r : Result} {rs : List Result} {es : List Event}
    (hs : s.SameOutside { t with events := s.events }) (hr : t.results = s.results ++ [r])
    (hn : ∀ ty sub p c, r ≠ .frame ty sub p c) (he : t.events = s.events ++ es)
    (hc : ∀ x ∈ es, ∃ e a, x = .checksumError e a) (h : t.Polled u rs) : s.Polled u (r :: rs) := by
  obtain ⟨_, g1, g2, g3, g4, _⟩ := hs
  have hmem : ∀ {ty sub p c} {l : List Result}, Result.frame ty sub p c ∉ l →
      Result.frame ty sub p c ∉ r :: l := fun h hm => by
    rcases List.mem_cons.1 hm with hm | hm
    · exact hn _ _ _ _ hm.symm
    · exact h hm
  have hes : ∀ {l : List Event}, (∀ x ∈ l, ∃ e a, x = .checksumError e a) →
      ∀ x ∈ es ++ l, ∃ e a, x = .checksumError e a := fun h x hx => by
    rcases List.mem_append.1 hx with hx | hx
    · exact hc x hx
    · exact h x hx
  obtain ⟨k1, k2, k3, k4⟩ := h
  refine ⟨k1.trans g4, k2.trans g3, by rw [k3, hr]; simp, ?_⟩
  rcases k4 with ⟨l, a1, a2, a3, a4, a5⟩ | ⟨rs', ty, sub, p, c, l, a0, a1, a2, a3, a4, a5⟩
  · exact .inl ⟨es ++ l, fun _ _ _ _ => hmem (a1 _ _ _ _), a2.trans g1, a3.trans g2,
      by rw [a4, he]; simp, hes a5⟩
  · exact .inr ⟨r :: rs', ty, sub, p, c, es ++ l, by rw [a0]; rfl, fun _ _ _ _ => hmem (a1 _ _ _ _),
      a2, a3, by rw [a4, he]; simp, hes a5⟩

theorem State.surface_frame (s : State) (report : Bool) (e a : Byte) :
    ∃ es, s.surface report e a = { s with events := s.events ++ es } ∧
      (∀ x ∈ es, ∃ e a, x = .checksumError e a) := by
  unfold State.surface
  split
  · exact ⟨[.checksumError e a], rfl, by simp⟩
  · exact ⟨[], by simp, by simp⟩

theorem afterExtract_polled {s u : State} {report : Bool}
    {next : State → Host.Outcome State Fault Refusal}
    (hn : ∀ {t}, next t = .next u → ∃ rs, t.Polled u rs)
    (h : afterExtract s.extractOp report next = .next u) : ∃ r rs, s.Polled u (r :: rs) := by
  rcases afterExtract_cases h with ⟨t, ty, sub, p, c, hx, rfl⟩ | ⟨t, e, a, hx, hu⟩ | hx | hx <;>
    obtain ⟨⟨f0, f1, f2, f3, f4, f5, f6⟩, hr⟩ := State.extractOp_frame hx
  · exact ⟨_, [], f4, f3, hr, .inr ⟨[], ty, sub, p, c, [], rfl, by simp, rfl, rfl,
      by simp [State.deliver, f5], by simp⟩⟩
  · obtain ⟨rs, hp⟩ := hn hu
    obtain ⟨es, he, hc⟩ := t.surface_frame report e a
    rw [he] at hp
    exact ⟨_, rs, State.Polled.cons (t := { t with events := t.events ++ es })
      ⟨f0, f1, f2, f3, f4, rfl, f6⟩ hr (by simp) (by simp [f5]) hc hp⟩
  all_goals
    exact ⟨_, [], (State.Polled.refl u).cons (es := []) ⟨f0, f1, f2, f3, f4, rfl, f6⟩ hr (by simp)
      (by simp [f5]) (by simp)⟩

theorem pollExtract_polled {goOn : List Bool} {report : Bool} {s u : State}
    (h : pollExtract report goOn s = .next u) : ∃ r rs, s.Polled u (r :: rs) := by
  induction goOn generalizing report s with
  | nil => exact afterExtract_polled (fun ht => by cases ht; exact ⟨_, State.Polled.refl _⟩) h
  | cons again more ih =>
    exact afterExtract_polled (fun ht => by obtain ⟨r, rs, hp⟩ := ih ht; exact ⟨r :: rs, hp⟩) h

theorem State.readAppend_move {s t : State} {n : Nat} {r : Result}
    (h : s.readAppend n = .ok (t, r)) : Move s t :=
  (Move.dropIncoming s _).trans (State.appendOp_move h)

theorem State.carry_move (s : State) (bs : List Byte) : Move s (s.carry bs) := by
  unfold State.carry
  split
  · exact .transmit s bs
  · exact .arrive s bs

theorem State.passBy_move (s : State) (p : Presented) : Move s (s.passBy p) := by
  cases p with
  | command ws => exact .refl s
  | wire bs => exact s.carry_move bs

theorem hostSendTyped_move {ty sub : Byte} {p : List Byte} {s t : State}
    (h : hostSendTyped ty sub p s = .next t) : Move s t := by
  unfold hostSendTyped at h
  split at h <;> cases h <;> exact s.sendFrame_move _ _ _

theorem pollResponse_move {c : TickChoice} {s t : State} (h : pollResponse c s = .next t) :
    Move s t := by
  unfold pollResponse at h
  rcases ha : s.readAppend c.read with f | ⟨u, r⟩ <;> rw [ha] at h
  · cases h
  · exact (State.readAppend_move ha).trans (pollExtract_move h)

theorem hostStep_move {e : HostEvent} {s t : State} (h : hostStep e s = .next t) : Move s t := by
  cases e with
  | connect =>
    simp only [hostStep, hostConnect] at h
    split at h <;> cases h <;> exact s.clearOp_move.trans (.setHost _ _ _)
  | tick c =>
    simp only [hostStep, hostTick] at h
    split at h
    · cases h; exact .refl _
    · cases h; exact .refl _
    · cases h; exact s.sendRequest_move _
    · exact pollResponse_move h
  | ioError r =>
    simp only [hostStep, hostIoError] at h
    split at h <;> cases h
    · exact s.clearOp_move.trans (.setHost _ _ _)
    all_goals exact (s.clearOp_move.trans (.setHost _ _ _)).trans (.emit _ _)
  | pollRead n =>
    simp only [hostStep, hostPollRead] at h
    split at h
    iterate 3 (cases h; exact .refl _)
    rcases ha : s.readAppend n with f | ⟨u, r⟩ <;> rw [ha] at h <;> cases h
    exact State.readAppend_move ha
  | pollExtract report =>
    simp only [hostStep, hostPollExtract] at h
    split at h
    iterate 3 (cases h; exact .refl _)
    exact pollExtract_move h
  | sendTyped ty sub p => exact hostSendTyped_move h
  | sendFloat ty sub v => exact hostSendTyped_move h
  | sendByte ty sub v => exact hostSendTyped_move h
  | sendStatusRequest =>
    simp only [hostStep, hostSendStatusRequest] at h
    split at h <;> cases h
    · exact s.sendRequest_move _
    · exact .refl _
  | close =>
    simp only [hostStep, hostClose] at h
    split at h <;> cases h <;> exact s.clearOp_move.trans (.setHost _ _ _)
  | received bs => cases h; exact .arrive s _
  | lost n => cases h; exact .dropIncoming s _

/-- The cases of a step that answers a next state. -/
theorem step_cases {s t : State} (h : step s = .next t) :
    (s.pending = [] ∧ t = s) ∨
    (∃ p r rest, s.pending = .issue p :: rest ∧ decode p = .error r ∧
      t = (s.setPending rest).passBy p) ∨
    (∃ p i rest, s.pending = .issue p :: rest ∧ decode p = .ok i ∧
      exec i (s.setPending rest) = .next t) ∨
    (∃ e rest, s.pending = .host e :: rest ∧ hostStep e (s.setPending rest) = .next t) := by
  unfold step at h
  split at h
  · rename_i hp; cases h; exact .inl ⟨hp, rfl⟩
  · rename_i p rest hp
    split at h
    · rename_i i hd; exact .inr (.inr (.inl ⟨p, i, rest, hp, hd, h⟩))
    · rename_i r hd; cases h; exact .inr (.inl ⟨p, r, rest, hp, hd, rfl⟩)
  · rename_i e rest hp; exact .inr (.inr (.inr ⟨e, rest, hp, h⟩))

/-- Every step is a chain of primitive moves. -/
theorem step_move {s t : State} (h : step s = .next t) : Move s t := by
  rcases step_cases h with ⟨_, rfl⟩ | ⟨p, _, rest, _, _, rfl⟩ | ⟨_, _, rest, _, _, h⟩ | ⟨_, rest, _, h⟩
  · exact .refl _
  · exact (Move.setPending s rest).trans (State.passBy_move _ p)
  · exact (Move.setPending s rest).trans (exec_move h)
  · exact (Move.setPending s rest).trans (hostStep_move h)

end Sys2Proof.Machine
end

