-- ==== Sys2Proof/Tests/Slice0.lean ====
section
/-! SUPPORT. The model's own tests, with expected values from the vectors of 95_test_vectors.md, and
for every statement with hypotheses a witness that meets them. -/

namespace Sys2Proof.Tests

open Sys2Proof Sys2Proof.Machine

/-! ### Helpers -/

/-- A state whose receive buffer holds `b`, with the default RECOG. -/
def box (capacity : Nat) (b : List Byte) : State :=
  { State.reset with
    cfg := { capacity := capacity, recog := Config.default.recog }
    rxBuf := Mem.writeSpan [] 0 b
    rxLen := b.length }

/-- The state after an outcome, if there is one. -/
def after (o : Host.Outcome State Fault Refusal) : Option State :=
  match o with
  | .next s => some s
  | .fault _ => none
  | .refused _ => none

/-- What a block operation left: the occupied bytes and the results. -/
def seen (o : Host.Outcome State Fault Refusal) : Option (List Byte × List Result) :=
  (after o).map fun s => (s.contents, s.results)

/-- A decoded presentation, if there is one. -/
def read (p : Presented) : Option Instr :=
  match decode p with
  | .ok i => some i
  | .error _ => none

/-- The name of a rejected presentation. -/
def rejected (p : Presented) : Option Reject :=
  match decode p with
  | .ok _ => none
  | .error r => some r

/-- A frame of the spec's vectors: E6. -/
def frameE6 : List Byte := [0xF0#8, 0xA1#8, 0x10#8, 3#8, 1#8, 2#8, 3#8, 0x19#8]

/-- `n` bytes of a value. -/
def fill (n : Nat) (b : Byte) : List Byte := List.replicate n b

@[simp] theorem fill_length (n : Nat) (b : Byte) : (fill n b).length = n := List.length_replicate

/-- A host awaiting a response, with bytes waiting in the transport. -/
def awaiting (incoming : List Byte) : State :=
  { box 16 [] with phase := .awaitingResponse, pendingRequest := true, incoming := incoming }

/-- A host in a state of the session without a request outstanding. -/
def hostIn (phase : HostPhase) : State := { box 16 [] with phase := phase }

/-- A tick that reads up to `n` bytes, surfaces a Corrupt and does not go on after one. -/
def tickOf (n : Nat) : TickChoice := { read := n, report := true, goOn := [] }

/-! ### WellFormed: the one check refuses (R64) -/

theorem test_wellFormed_refuses_long_frames :
    Instr.wellFormed (.frameRxGetAll 0#8 (fill 256 0#8) 0#8) = false ∧
    Instr.wellFormed (.frameTxGetAll 0#8 (fill 256 0#8) 0#8) = false ∧
    Instr.wellFormed (.frameTxControl 0#8 (fill 256 0#8) 0#8) = false := by
  simp [Instr.wellFormed]

theorem test_wellFormed_admits_longest_frames :
    Instr.wellFormed (.frameRxGetAll 0#8 (fill 255 0#8) 0#8) = true ∧
    Instr.wellFormed (.frameTxGetAll 0#8 (fill 255 0#8) 0#8) = true ∧
    Instr.wellFormed (.frameTxControl 0#8 (fill 255 0#8) 0#8) = true ∧
    Instr.wellFormed (.encode 0#8 0#8 0#8 (fill 256 0#8)) = true := by
  simp [Instr.wellFormed]

/-! ### Decoding, words written out from R60, R71, R72 and part 3 of 95_test_vectors.md -/

/-- P1 line 1. -/
theorem test_decode_encode :
    read (.command [0, 0xF0, 0xA1, 0xC0, 4, 0xA4, 0x70, 0x45, 0x41]) =
      some (.encode 0xF0#8 0xA1#8 0xC0#8 [0xA4#8, 0x70#8, 0x45#8, 0x41#8]) := by decide

theorem test_decode_scan : read (.command [1, 2, 0xF0, 0xA1]) = some (.scan [0xF0#8, 0xA1#8]) := by
  decide

/-- P7 line 4. -/
theorem test_decode_append :
    read (.command [2, 3, 0x02, 0x03, 0x19]) = some (.append [2#8, 3#8, 0x19#8]) := by decide

theorem test_decode_extract : read (.command [3]) = some .extract := by decide

theorem test_decode_clear : read (.command [4]) = some .clear := by decide

theorem test_decode_reserved5 : read (.command [5, 300]) = some (.reserved5 [300]) := by decide

theorem test_decode_reserved6 : read (.command [6]) = some (.reserved6 []) := by decide

theorem test_decode_reserved7 : read (.command [7, 1, 2]) = some (.reserved7 [1, 2]) := by decide

/-- The op select is three bits, the table's mask 0x7: op word 0b1011 selects EXTRACT. -/
theorem test_decode_selects_low_bits : read (.command [0b1011]) = some .extract := by decide

theorem test_decode_frameRxGetAll :
    read (.wire frameE6) = some (.frameRxGetAll 0x10#8 [1#8, 2#8, 3#8] 0x19#8) := by decide

/-- E2. -/
theorem test_decode_frameTxGetAll :
    read (.wire [0xF1#8, 0xA1#8, 0xFF#8, 1#8, 0#8, 0#8]) = some (.frameTxGetAll 0xFF#8 [0#8] 0#8) := by
  decide

/-- E3. -/
theorem test_decode_frameTxControl :
    read (.wire [0xF1#8, 0xC1#8, 0#8, 1#8, 1#8, 2#8]) = some (.frameTxControl 0#8 [1#8] 2#8) := by
  decide

/-- Every rejection, by name. -/
theorem test_decode_rejects :
    rejected (.command []) = some .emptyCommand ∧
    rejected (.command [0, 1, 2]) = some .missingOperand ∧
    rejected (.command [2, 2, 7]) = some .missingOperand ∧
    rejected (.command [1, 1, 256]) = some (.notAByte 256) ∧
    rejected (.command [3, 0]) = some .trailingOperands ∧
    rejected (.wire [0xF0#8, 0xA1#8, 0#8]) = some .shortFrame ∧
    rejected (.wire [0xF0#8, 0xA1#8, 0#8, 0#8]) = some .frameLength ∧
    rejected (.wire [0xF0#8, 0xA1#8, 0#8, 0#8, 0#8, 0#8]) = some .frameLength ∧
    rejected (.wire [0xF0#8, 0xC1#8, 0#8, 0#8, 0#8]) = some (.unnamedPair 0xF0#8 0xC1#8) := by decide

/-- A word of each interface of the table, as the table numbers its bits. -/
theorem test_table_words :
    decodeTableWord 8 0 = some (.encode 0#8 0#8 0#8 []) ∧ decodeTableWord 8 1 = some (.scan []) ∧
    decodeTableWord 8 2 = some (.append []) ∧ decodeTableWord 8 3 = some .extract ∧
    decodeTableWord 8 4 = some .clear ∧ decodeTableWord 8 5 = some (.reserved5 []) ∧
    decodeTableWord 8 6 = some (.reserved6 []) ∧ decodeTableWord 8 7 = some (.reserved7 []) ∧
    decodeTableWord 16 0xF0A1 = some (.frameRxGetAll 0#8 [] 0#8) ∧
    decodeTableWord 16 0xF1A1 = some (.frameTxGetAll 0#8 [] 0#8) ∧
    decodeTableWord 16 0xF1C1 = some (.frameTxControl 0#8 [] 0#8) := by decide

/-- The word placed is what the next step runs, the first one after reset. -/
theorem test_withFetchWord :
    (after (step (State.reset.withFetchWord 8 3))).map State.results = some [.empty] ∧
    (after (step (State.reset.withFetchWord 16 0xF0A1))).map State.incoming =
      some [0xF0#8, 0xA1#8, 0#8, 0#8, 0#8] := by decide

/-! ### The operations, from part 2 of 95_test_vectors.md -/

/-- E4. -/
theorem test_encode_E4 :
    seen (exec (.encode 0xF0#8 0xA1#8 0xC0#8 [0xA4#8, 0x70#8, 0x45#8, 0x41#8]) (box 16 [9#8])) =
      some ([9#8], [.encoded [0xF0#8, 0xA1#8, 0xC0#8, 4#8, 0xA4#8, 0x70#8, 0x45#8, 0x41#8, 0x5E#8]]) := by
  decide

/-- E12. -/
theorem test_encode_E12 :
    seen (exec (.encode 0xF0#8 0xA1#8 0#8 (fill 256 0#8)) (box 16 [])) =
      some ([], [.raised (.encodeLengthViolation 256)]) := by
  have h : encodeFrame 0xF0#8 0xA1#8 0#8 (fill 256 0#8) = .error (.encodeLengthViolation 256) := by
    simp [encodeFrame]
  simp only [exec, execEncode, State.encodeOp, h]
  decide

/-- K8, noise before a valid frame. -/
theorem test_scan_K8 :
    seen (exec (.scan [0#8, 0x11#8, 0xF0#8, 0xA1#8, 7#8, 0#8, 7#8]) (box 16 [])) =
      some ([], [.scanned (.validFrame 0xA1#8 7#8 [] 7)]) := by decide

/-- K13, a wrong checksum at offset 1. -/
theorem test_scan_K13 :
    seen (exec (.scan [0x55#8, 0xF0#8, 0xA1#8, 7#8, 0#8, 8#8, 0x99#8]) (box 16 [])) =
      some ([], [.scanned (.invalidFrame (.checksumMismatch 1 7#8 8#8))]) := by decide

/-- A8, the exact fill. -/
theorem test_append_A8 :
    seen (exec (.append (fill 5 0x22#8)) (box 16 (fill 10 0x11#8))) =
      some (fill 10 0x11#8 ++ fill 5 0x22#8, [.ok]) := by decide

/-- A9, the overflow. -/
theorem test_append_A9 :
    seen (exec (.append [0x33#8]) (box 16 (fill 15 0x11#8))) = some ([], [.raised .overflow]) := by
  decide

/-- X2, a frame with one byte behind it. -/
theorem test_extract_X2 :
    seen (exec .extract
      (box 16 [0xF0#8, 0xA1#8, 0xC0#8, 4#8, 0xA4#8, 0x70#8, 0x45#8, 0x41#8, 0x5E#8, 0x99#8])) =
      some ([0x99#8], [.frame 0xA1#8 0xC0#8 [0xA4#8, 0x70#8, 0x45#8, 0x41#8] 9]) := by decide

/-- X5, a corrupt frame behind one byte of noise. -/
theorem test_extract_X5 :
    seen (exec .extract (box 16 [0x55#8, 0xF0#8, 0xA1#8, 7#8, 0#8, 8#8, 0x99#8])) =
      some ([0xA1#8, 7#8, 0#8, 8#8, 0x99#8], [.raised (.corrupt 7#8 8#8)]) := by decide

/-- C1. -/
theorem test_clear_C1 : seen (exec .clear (box 64 (fill 37 5#8))) = some ([], [.ok]) := by decide

/-- Z1. -/
theorem test_reserved_Z1 :
    seen (exec (.reserved5 [999]) (box 16 [1#8])) = some ([1#8], [.raised (.opRefused 5)]) ∧
    seen (exec (.reserved6 []) (box 16 [1#8])) = some ([1#8], [.raised (.opRefused 6)]) ∧
    seen (exec (.reserved7 []) (box 16 [1#8])) = some ([1#8], [.raised (.opRefused 7)]) := by decide

/-- E6, its bytes on the read side. -/
theorem test_frameRxGetAll_E6 :
    (after (exec (.frameRxGetAll 0x10#8 [1#8, 2#8, 3#8] 0x19#8) (box 16 []))).map State.incoming =
      some frameE6 := by decide

/-- E2. -/
theorem test_frameTxGetAll_E2 :
    (after (exec (.frameTxGetAll 0xFF#8 [0#8] 0#8) (box 16 []))).map State.outgoing =
      some [0xF1#8, 0xA1#8, 0xFF#8, 1#8, 0#8, 0#8] := by decide

/-- E3. -/
theorem test_frameTxControl_E3 :
    (after (exec (.frameTxControl 0#8 [1#8] 2#8) (box 16 []))).map State.outgoing =
      some [0xF1#8, 0xC1#8, 0#8, 1#8, 1#8, 2#8] := by decide

/-- A frame of a pair the table does not name, outward by its marker; a part of a frame, inward. -/
theorem test_link_passes_unnamed_bytes :
    (after (step { box 16 [] with pending := [.issue (.wire [0xF1#8, 0xB1#8, 0#8, 0#8, 0#8])] })).map
      State.outgoing = some [0xF1#8, 0xB1#8, 0#8, 0#8, 0#8] ∧
    (after (step { box 16 [] with pending := [.issue (.wire [0xF0#8, 0xA1#8])] })).map
      State.incoming = some [0xF0#8, 0xA1#8] := by decide

/-! ### The host, from P8 and S6, S7, S8 -/

/-- G3: 12.34 sent as a float, sub-code 0xC0; its bytes and checksum are those of S7. -/
theorem test_host_send_float :
    (after (hostStep (.sendFloat 0xC1#8 0xC0#8 0x414570A4#32) (hostIn .awaitingRequest))).map
      State.outgoing =
      some [0xF1#8, 0xC1#8, 0xC0#8, 4#8, 0xA4#8, 0x70#8, 0x45#8, 0x41#8, 0x5E#8] := by decide

/-- E3 as a byte send. -/
theorem test_host_send_byte :
    (after (hostStep (.sendByte 0xC1#8 0#8 1#8) (hostIn .awaitingRequest))).map State.outgoing =
      some [0xF1#8, 0xC1#8, 0#8, 1#8, 1#8, 2#8] := by decide

/-- A read longer than MAX_OCC is split: 15 of 20 bytes are appended, 5 wait. -/
theorem test_host_splits_long_reads :
    (after (hostStep (.pollRead 20) (awaiting (fill 20 0x11#8)))).map
      (fun s => (s.rxLen, s.incoming.length, s.results)) = some (15, 5, [.ok]) := by decide

/-- P8 tick 1, with the example's REQ_PAYLOAD. -/
theorem test_host_request_P8 :
    ((hostIn .awaitingRequest).sendRequest [0#8]).outgoing =
      [0xF1#8, 0xA1#8, 0xFF#8, 1#8, 0#8, 0#8] := by decide

/-- P8 ticks 3 and 4: the response in two chunks. -/
theorem test_host_response_P8 :
    (after (hostStep (.tick (tickOf 5)) (awaiting [0xF0#8, 0xA1#8, 0xFF#8, 3#8, 1#8]))).map
        (fun s => (s.phase, s.pendingRequest, s.results)) =
      some (.awaitingResponse, true, [.ok, .awaiting]) ∧
    (after (hostStep (.tick (tickOf 3))
        { awaiting [2#8, 3#8, 8#8] with
          rxBuf := Mem.writeSpan [] 0 [0xF0#8, 0xA1#8, 0xFF#8, 3#8, 1#8], rxLen := 5 })).map
        (fun s => (s.phase, s.pendingRequest, s.results)) =
      some (.awaitingRequest, false, [.ok, .frame 0xA1#8 0xFF#8 [1#8, 2#8, 3#8] 8]) := by decide

/-- A surfaced Corrupt leaves the host where it is (R156). -/
theorem test_host_corrupt :
    (after (hostStep (.tick (tickOf 5)) (awaiting [0xF0#8, 0xA1#8, 7#8, 0#8, 8#8]))).map
        (fun s => (s.phase, s.pendingRequest, s.events)) =
      some (.awaitingResponse, true, [.checksumError 7#8 8#8]) := by decide

/-- S6: 6 is REP, 7 is UNKNOWN(7), at payload offset 108. -/
theorem test_decoder_S6 :
    (allDataStatus ((fill 119 0#8).set 108 6#8)).protection = .rep ∧
    (allDataStatus ((fill 119 0#8).set 108 7#8)).protection = .unknown 7#8 := by decide

/-- S7 with the bytes of G3, and S8 with the offset R182 infers. -/
theorem test_decoder_S7_S8 :
    decodeStatus 192#8 [0xA4#8, 0x70#8, 0x45#8, 0x41#8] = .inputVoltage 0x414570A4#32 ∧
    outputOn (allDataStatus ((fill 119 0#8).set 107 1#8)) = true := by decide

/-! ### Reset -/

/-- The defaults of R9, R10 and R11. -/
theorem test_reset_parameters :
    State.reset.cfg.capacity = 8192 ∧ State.reset.cfg.maxOcc = 8191 ∧
    State.reset.cfg.recog = [(0xF0#8, 0xA1#8)] := by decide

/-- Storing 0x00 over a listed byte removes the cell, and equal memories are equal data. -/
theorem test_memory_canonical :
    Mem.setByte (Mem.setByte [] 3 7#8) 3 0#8 = [] ∧
    Mem.setByte (Mem.setByte [] 3 7#8) 1 9#8 = Mem.setByte (Mem.setByte [] 1 9#8) 3 7#8 := by decide

/-! ### Witnesses: for every statement with hypotheses, values that meet them, clause by clause at the
boundaries -/

/-- CAPACITY 16 filled to MAX_OCC. -/
def full : State := box 16 (fill 15 0x11#8)

/-- The same occupied bytes as `box 16 [1#8, 2#8]`, another stale byte at index 7. -/
def stale : State := { box 16 [1#8, 2#8] with rxBuf := [(0, 1#8), (1, 2#8), (7, 9#8)] }

/-- `s` with one thing presented. -/
def presenting (s : State) (p : Stimulus) : State := s.setPending [p]

theorem inv_of {s : State} (h : s.cfg.Wf ∧ Mem.Wf s.rxBuf ∧ (∀ c ∈ s.rxBuf, c.1 < s.cfg.maxOcc) ∧
    s.rxLen ≤ s.cfg.maxOcc) (g : s.pendingRequest = true ↔ s.phase = .awaitingResponse) : s.Inv :=
  ⟨h, g⟩

theorem first_of {recog : List (Byte × Byte)} {b : List Byte} {i : Nat}
    (h : i + 1 < b.length ∧ (b.getD i 0#8, b.getD (i + 1) 0#8) ∈ recog)
    (g : ∀ j < i, ¬ (j + 1 < b.length ∧ (b.getD j 0#8, b.getD (j + 1) 0#8) ∈ recog)) :
    FirstCandidate recog b i := ⟨h, g⟩

theorem sameSeen_of {s t : State} (h : t.cfg = s.cfg ∧ t.phase = s.phase ∧
    t.pendingRequest = s.pendingRequest ∧ t.incoming = s.incoming ∧ t.outgoing = s.outgoing ∧
    t.events = s.events ∧ t.pending = s.pending)
    (g : t.results = s.results ∧ t.rxLen = s.rxLen ∧ t.contents = s.contents) : s.SameSeen t :=
  ⟨h, g⟩

theorem witness_DecodeOfEncodeIsIdentity :
    Instr.wellFormed (.frameRxGetAll 0xFF#8 (fill 255 0xFF#8) 0xFF#8) = true ∧
    Instr.wellFormed (.encode 0#8 0#8 0#8 (fill 300 0#8)) = true := by
  simp [Instr.wellFormed]

theorem witness_EncodeOfDecodeIsIdentity :
    decode (.command [7, 4]) = .ok (.reserved7 [4]) ∧
    (∀ w ws, Presented.command [7, 4] = .command (w :: ws) → w < 8) ∧
    decode (.command [9, 0]) = .ok (.scan []) ∧
    decode (.wire frameE6) = .ok (.frameRxGetAll 0x10#8 [1#8, 2#8, 3#8] 0x19#8) :=
  ⟨rfl, fun _ _ h => by cases h; decide, rfl, rfl⟩

theorem witness_ReservedOpsDecodeWithAnyOperands :
    5 % 8 = 5 ∧ 13 % 8 = 5 ∧ 6 % 8 = 6 ∧ 14 % 8 = 6 ∧ 7 % 8 = 7 ∧ 255 % 8 = 7 := by decide

theorem witness_StepRunsTheDecodedInstruction :
    (presenting full (.issue (.command [3]))).pending = .issue (.command [3]) :: [] ∧
    decode (.command [3]) = .ok .extract ∧
    (presenting full (.issue (.command []))).pending = .issue (.command []) :: [] ∧
    decode (.command []) = .error .emptyCommand ∧
    (presenting full (.issue (.wire [0xF0#8]))).pending = .issue (.wire [0xF0#8]) :: [] ∧
    decode (.wire [0xF0#8]) = .error .shortFrame ∧
    (presenting full (.host .connect)).pending = .host .connect :: [] ∧ full.pending = [] :=
  ⟨rfl, rfl, rfl, rfl, rfl, rfl, rfl, rfl⟩

theorem witness_LinkCarriesEveryByteSequence :
    (presenting full (.issue (.wire [0xF1#8]))).pending = .issue (.wire [0xF1#8]) :: [] ∧
    [0xF1#8].head? = some 0xF1#8 ∧ frameE6.head? ≠ some 0xF1#8 ∧
    ([] : List Byte).head? ≠ some 0xF1#8 := by decide

theorem witness_ResetTable : full.cfg.maxOcc < full.rxLen + [0x33#8].length := by decide

theorem witness_StepKeepsInvariant :
    (presenting full (.issue (.command [2, 0]))).Inv ∧ (presenting (awaiting frameE6)
      (.host (.tick (tickOf 8)))).Inv ∧
    ∃ t u, step (presenting full (.issue (.command [2, 0]))) = .next t ∧
      step (presenting (awaiting frameE6) (.host (.tick (tickOf 8)))) = .next u :=
  ⟨inv_of (by decide) (by decide), inv_of (by decide) (by decide), _, _, rfl, rfl⟩

theorem witness_BlockIsNeverStuck :
    full.rxLen = full.cfg.maxOcc ∧ encode .extract = .command [3] ∧
    (∃ bs, encode (.frameRxGetAll 0#8 [] 0#8) = .wire bs) ∧
    (presenting full (.issue (.command [0]))).pending = .issue (.command [0]) :: [] :=
  ⟨by decide, rfl, ⟨_, rfl⟩, rfl⟩

theorem witness_ParametersNeverChange :
    ∃ t, step (presenting full (.issue (.command [4]))) = .next t := ⟨_, rfl⟩

theorem witness_RecordsOnlyGrow :
    ∃ t, step (presenting (awaiting frameE6) (.host (.tick (tickOf 8)))) = .next t ∧
      t.results ≠ [] ∧ t.events ≠ [] := ⟨_, rfl, by decide, by decide⟩

/-- Next, refused and fault, each from two states that differ in a stale byte. -/
theorem witness_BytesAboveLengthAreUnobservable :
    Mem.Wf (box 16 [1#8, 2#8]).rxBuf ∧ Mem.Wf stale.rxBuf ∧ stale ≠ box 16 [1#8, 2#8] ∧
    (presenting (box 16 [1#8, 2#8]) (.issue (.command [3]))).SameSeen
      (presenting stale (.issue (.command [3]))) ∧
    (∃ t, step (presenting (box 16 [1#8, 2#8]) (.issue (.command [3]))) = .next t) ∧
    (presenting (box 16 [1#8, 2#8]) (.host .close)).SameSeen (presenting stale (.host .close)) ∧
    step (presenting (box 16 [1#8, 2#8]) (.host .close)) = .refused .notConnected ∧
    (presenting (box 1 [1#8, 2#8]) (.issue (.command [3]))).SameSeen
      (presenting { stale with cfg := (box 1 []).cfg } (.issue (.command [3]))) ∧
    step (presenting (box 1 [1#8, 2#8]) (.issue (.command [3]))) = .fault (.outsideBuffer 2) :=
  ⟨by decide, by decide, by decide, sameSeen_of (by decide) (by decide), ⟨_, rfl⟩,
    sameSeen_of (by decide) (by decide), rfl, sameSeen_of (by decide) (by decide), rfl⟩

theorem witness_SentinelIndexIsNeverWritten :
    full.rxLen ≤ full.cfg.maxOcc ∧
    ∃ t, step (presenting full (.issue (.command [3]))) = .next t := ⟨by decide, _, rfl⟩

theorem witness_CommandsLeaveTheRestAlone :
    (∃ ws, encode .extract = .command ws) ∧ (∃ t, exec .extract full = .next t) ∧
    (∃ ws, encode .clear = .command ws) ∧ (∃ t, exec .clear full = .next t) ∧
    (∃ ws, encode (.scan []) = .command ws) ∧ ∃ t, exec (.scan []) full = .next t :=
  ⟨⟨_, rfl⟩, ⟨_, rfl⟩, ⟨_, rfl⟩, ⟨_, rfl⟩, ⟨_, rfl⟩, _, rfl⟩

theorem witness_WireFramesLeaveTheBlockAlone :
    (∃ bs, encode (.frameTxControl 0#8 [1#8] 2#8) = .wire bs) ∧
    ∃ t, exec (.frameTxControl 0#8 [1#8] 2#8) full = .next t := ⟨⟨_, rfl⟩, _, rfl⟩

/-- The longest payload, and the first one too long: ENCODE's two sides. -/
theorem witness_EncodeBuildsTheFrameOrRefuses :
    (fill 255 0xFF#8).length ≤ 255 ∧ 255 < (fill 256 0#8).length := by simp

theorem witness_ChecksumAccumulatesInEightBits : (fill 255 0xFF#8).length ≤ 255 := by simp

theorem witness_EncodeCornerCases :
    ([] : List Byte).length ≤ 255 ∧ (fill 255 0#8).length = 255 ∧ 254 < (fill 255 0#8).length := by
  simp

theorem witness_ScanReadsBackEncode :
    (0xF0#8, 0xA1#8) ∈ full.cfg.recog ∧ (fill 255 0#8).length ≤ 255 := ⟨by decide, by simp⟩

theorem witness_EncodeDisturbsNoReceiveOperation :
    (∃ v, exec .extract (box 16 frameE6) = .next v) ∧ (∃ v, exec .clear (box 16 frameE6) = .next v) ∧
    ∃ v, exec (.append (fill 7 1#8)) (box 16 frameE6) = .next v := ⟨⟨_, rfl⟩, ⟨_, rfl⟩, _, rfl⟩

/-- K2; K5; K6; K7 and K12, which meet the length bounds exactly; K8 at offset 2. -/
theorem witness_ScanClassifiesTheFirstCandidate :
    (∀ i, ¬ Candidate Config.default.recog [0xF0#8] i) ∧
    FirstCandidate Config.default.recog [0xF0#8, 0xA1#8, 0#8] 0 ∧
    ([0xF0#8, 0xA1#8, 0#8] : List Byte).length < 0 + 4 ∧
    FirstCandidate Config.default.recog [0xF0#8, 0xA1#8, 0#8, 0#8] 0 ∧
    0 + 4 ≤ ([0xF0#8, 0xA1#8, 0#8, 0#8] : List Byte).length ∧
    ([0xF0#8, 0xA1#8, 0#8, 0#8] : List Byte).length < 0 + 0 + 5 ∧
    FirstCandidate Config.default.recog [0xF0#8, 0xA1#8, 7#8, 0#8, 7#8] 0 ∧
    0 + 0 + 5 ≤ ([0xF0#8, 0xA1#8, 7#8, 0#8, 7#8] : List Byte).length ∧
    (7#8).toNat = ((7#8).toNat + 0 + byteSum []) % 256 ∧
    FirstCandidate Config.default.recog [0xF0#8, 0xA1#8, 7#8, 0#8, 8#8] 0 ∧ 7#8 ≠ 8#8 ∧
    FirstCandidate Config.default.recog [0#8, 0x11#8, 0xF0#8, 0xA1#8, 7#8, 0#8, 7#8] 2 := by
  exact ⟨fun i h => absurd h.1 (by simp), first_of (by decide) (by decide), by decide,
    first_of (by decide) (by decide), by decide, by decide, first_of (by decide) (by decide),
    by decide, by decide, first_of (by decide) (by decide), by decide,
    first_of (by decide) (by decide)⟩

/-- K12; K7; K15; and a lone marker whose successor makes a candidate. -/
theorem witness_ScanExtensionLaw :
    (∃ r, scanBytes Config.default.recog [0xF0#8, 0xA1#8, 7#8, 0#8, 8#8] = .invalidFrame r) ∧
    (∃ t s p c, scanBytes Config.default.recog [0xF0#8, 0xA1#8, 7#8, 0#8, 7#8] =
      .validFrame t s p c) ∧
    scanBytes Config.default.recog [0xF0#8, 0xA1#8, 0#8, 9#8, 0xF0#8, 0xA1#8, 7#8, 0#8, 7#8] =
      .partialFrame ∧
    FirstCandidate Config.default.recog
      [0xF0#8, 0xA1#8, 0#8, 9#8, 0xF0#8, 0xA1#8, 7#8, 0#8, 7#8] 0 ∧
    scanBytes Config.default.recog [0xAA#8, 0xF0#8] = .noFrame ∧
    FirstCandidate Config.default.recog ([0xAA#8, 0xF0#8] ++ [0xA1#8]) 1 := by
  exact ⟨⟨_, rfl⟩, ⟨_, _, _, _, rfl⟩, by decide, first_of (by decide) (by decide), by decide,
    first_of (by decide) (by decide)⟩

/-- The first and the last admitted offset of E6, the top bit. -/
theorem witness_ScanDetectsFlippedBits :
    (0xF0#8, 0xA1#8) ∈ Config.default.recog ∧ [1#8, 2#8, 3#8].length ≤ 255 ∧
    2 ≤ 2 ∧ 2 ≠ 3 ∧ 7 ≠ 3 ∧ 7 < [1#8, 2#8, 3#8].length + 5 ∧ 7 < 8 := by decide

theorem witness_ScanOfChangedLengthByte :
    (0xF0#8, 0xA1#8) ∈ Config.default.recog ∧ [1#8, 2#8, 3#8].length ≤ 255 ∧
    [1#8, 2#8, 3#8].length < (4#8).toNat := by decide

/-- E6's checksum 0x19, and 0x1A. -/
theorem witness_WireFrameScansByItsChecksum :
    (0xF0#8, 0xA1#8) ∈ Config.default.recog ∧ [1#8, 2#8, 3#8].length ≤ 255 ∧
    (∃ bs, encode (.frameRxGetAll 0x10#8 [1#8, 2#8, 3#8] 0x19#8) = .wire bs) ∧
    (0x19#8).toNat = ((0x10#8).toNat + [1#8, 2#8, 3#8].length + byteSum [1#8, 2#8, 3#8]) % 256 ∧
    (0x1A#8).toNat ≠ ((0x10#8).toNat + [1#8, 2#8, 3#8].length + byteSum [1#8, 2#8, 3#8]) % 256 :=
  ⟨by decide, by decide, ⟨_, rfl⟩, by decide, by decide⟩

/-- A8, the exact fill; an address on each side of what is stored. -/
theorem witness_AppendStoresTheChunk :
    Mem.Wf (box 16 (fill 10 0x11#8)).rxBuf ∧
    (box 16 (fill 10 0x11#8)).rxLen + (fill 5 0x22#8).length =
      (box 16 (fill 10 0x11#8)).cfg.maxOcc ∧
    4 < (fill 5 0x22#8).length ∧ 9 < (box 16 (fill 10 0x11#8)).rxLen := by decide

/-- A9. -/
theorem witness_AppendOverflowEmptiesTheBuffer :
    full.rxLen + [0x33#8].length = full.cfg.maxOcc + 1 := by decide

theorem witness_AppendCornerCases :
    full.rxLen ≤ full.cfg.maxOcc ∧ (box 16 []).rxLen = 0 ∧
    (fill 15 0#8).length = (box 16 []).cfg.maxOcc ∧ [0#8] ≠ [] ∧
    (box 16 []).cfg.maxOcc < (fill 16 0#8).length := by decide

/-- X2, X3. -/
theorem witness_ExtractDeliversAValidFrame :
    Mem.Wf (box 16 (frameE6 ++ [0x99#8])).rxBuf ∧ (box 9 frameE6).rxLen = (box 9 frameE6).cfg.maxOcc ∧
    scanBytes (box 16 (frameE6 ++ [0x99#8])).cfg.recog (box 16 (frameE6 ++ [0x99#8])).contents =
      .validFrame 0xA1#8 0x10#8 [1#8, 2#8, 3#8] 8 ∧
    scanBytes (box 9 frameE6).cfg.recog (box 9 frameE6).contents =
      .validFrame 0xA1#8 0x10#8 [1#8, 2#8, 3#8] 8 := by decide

/-- X5. -/
theorem witness_ExtractStepsPastACorruptFrame :
    Mem.Wf (box 8 [0x55#8, 0xF0#8, 0xA1#8, 7#8, 0#8, 8#8, 0x99#8]).rxBuf ∧
    (box 8 [0x55#8, 0xF0#8, 0xA1#8, 7#8, 0#8, 8#8, 0x99#8]).rxLen ≤
      (box 8 [0x55#8, 0xF0#8, 0xA1#8, 7#8, 0#8, 8#8, 0x99#8]).cfg.maxOcc ∧
    scanBytes Config.default.recog
      (box 8 [0x55#8, 0xF0#8, 0xA1#8, 7#8, 0#8, 8#8, 0x99#8]).contents =
      .invalidFrame (.checksumMismatch 1 7#8 8#8) := by decide

/-- X8, X9, X1. -/
theorem witness_ExtractWaitsWithoutAFrame :
    scanBytes Config.default.recog (box 7 [0x11#8, 0x22#8, 0xF0#8, 0xA1#8, 0x10#8, 3#8]).contents =
      .partialFrame ∧
    (box 7 [0x11#8, 0x22#8, 0xF0#8, 0xA1#8, 0x10#8, 3#8]).rxLen ≤ 6 ∧
    scanBytes Config.default.recog (box 16 [0x11#8, 0x22#8, 0x33#8]).contents = .noFrame ∧
    scanBytes Config.default.recog (box 16 []).contents = .noFrame := by decide

/-- X4: two bytes skipped. -/
theorem witness_DeliveredFramesWereCompleteAndChecked :
    ∃ u, exec .extract (box 8 [0#8, 0x11#8, 0xF0#8, 0xA1#8, 7#8, 0#8, 7#8]) = .next u ∧
      u.results = (box 8 []).results ++ [.frame 0xA1#8 7#8 [] 7] := ⟨_, rfl, by decide⟩

theorem witness_DrainReachesAwaitingOrEmpty : full.rxLen = full.cfg.maxOcc := by decide

/-- E6 in a buffer it just fits. -/
theorem witness_BytewiseFeedDeliversTheFrame :
    Mem.Wf (box 9 []).rxBuf ∧ (box 9 []).rxLen = 0 ∧ (0xF0#8, 0xA1#8) ∈ (box 9 []).cfg.recog ∧
    [1#8, 2#8, 3#8].length ≤ 255 ∧ [1#8, 2#8, 3#8].length + 5 = (box 9 []).cfg.maxOcc := by decide

theorem witness_TwoFramesGiveTwoResults :
    Mem.Wf (box 14 []).rxBuf ∧ (box 14 []).rxLen = 0 ∧ (0xF0#8, 0xA1#8) ∈ (box 14 []).cfg.recog ∧
    (([] : List Byte).length + 5) + ([1#8, 2#8, 3#8].length + 5) = (box 14 []).cfg.maxOcc := by decide

/-- A corrupt and a valid frame in three chunks that just fit. -/
theorem witness_ChunkingDoesNotMatter :
    Mem.Wf (box 14 []).rxBuf ∧ (box 14 []).rxLen = 0 ∧
    [[0xF0#8], [0xA1#8, 7#8, 0#8, 8#8], frameE6].flatten.length = (box 14 []).cfg.maxOcc := by decide

theorem witness_CloseEndsTheSession :
    (hostIn .awaitingRequest).phase = .awaitingRequest ∧ (awaiting []).phase = .awaitingResponse := by
  decide

/-- A Frame, a Corrupt that is surfaced, an I/O error. -/
theorem witness_EventsComeFromTheirCauses :
    (∃ u, step (presenting (awaiting frameE6) (.host (.tick (tickOf 8)))) = .next u ∧
      u.events = [.statusUpdated (.unknown 0x10#8 [1#8, 2#8, 3#8])]) ∧
    (∃ u, step (presenting (awaiting [0xF0#8, 0xA1#8, 7#8, 0#8, 8#8]) (.host (.tick (tickOf 5)))) =
      .next u ∧ u.events = [.checksumError 7#8 8#8]) ∧
    ∃ u, step (presenting (awaiting []) (.host (.ioError .readError))) = .next u ∧
      u.events = [.connectionLost .readError] :=
  ⟨⟨_, rfl, by decide⟩, ⟨_, rfl, by decide⟩, _, rfl, by decide⟩

theorem witness_ConnectOpensACleanSession :
    State.reset.phase = .idle ∧ (hostIn .faulted).phase = .faulted := by decide

theorem witness_TickSendsTheRequest : (hostIn .awaitingRequest).phase = .awaitingRequest := by decide

/-- A tick that gets the frame, its bytes just fitting; one that reads nothing; one that overflows. -/
theorem witness_TickAwaitsTheResponse :
    (awaiting frameE6).phase = .awaitingResponse ∧ (awaiting frameE6).pendingRequest = true ∧
    (∃ u, hostStep (.tick (tickOf 8)) { awaiting frameE6 with cfg := (box 9 []).cfg } = .next u ∧
      u.pendingRequest = false) ∧
    0 + (frameE6.take 8).length = (box 9 []).cfg.maxOcc ∧
    (∃ u, hostStep (.tick (tickOf 0)) (awaiting frameE6) = .next u ∧ u.pendingRequest = true) ∧
    (∃ u, hostStep (.tick (tickOf 1)) { full with
        phase := .awaitingResponse, pendingRequest := true, incoming := frameE6 } = .next u) ∧
    full.cfg.maxOcc < full.rxLen + (frameE6.take 1).length :=
  ⟨by decide, by decide, ⟨_, rfl, by decide⟩, by decide, ⟨_, rfl, by decide⟩, ⟨_, rfl⟩, by decide⟩

/-- Each result of the poll's EXTRACT; a tick that goes on after a Corrupt; one whose EXTRACT answers
no Corrupt, also after an Overflow. -/
theorem witness_PollIsAppendThenExtract :
    (awaiting []).phase = .awaitingResponse ∧
    (∃ w, exec .extract { box 9 frameE6 with phase := .awaitingResponse } = .next w ∧
      w.results = [] ++ [.frame 0xA1#8 0x10#8 [1#8, 2#8, 3#8] 8]) ∧
    (∃ w, exec .extract { box 16 [0xF0#8, 0xA1#8, 7#8, 0#8, 8#8] with phase := .awaitingResponse } =
      .next w ∧ w.results = [] ++ [.raised (.corrupt 7#8 8#8)]) ∧
    (∃ w, exec .extract (awaiting []) = .next w ∧ w.results = [] ++ [.empty]) ∧
    (∃ v w, hostStep (.pollRead 5) (awaiting [0xF0#8, 0xA1#8, 7#8, 0#8, 8#8]) = .next v ∧
      hostStep (.pollExtract true) v = .next w ∧
      w.results = v.results ++ [.raised (.corrupt 7#8 8#8)]) ∧
    (∃ v w, hostStep (.pollRead 8) (awaiting frameE6) = .next v ∧
      hostStep (.pollExtract true) v = .next w ∧
      w.results = v.results ++ [.frame 0xA1#8 0x10#8 [1#8, 2#8, 3#8] 8]) ∧
    (∃ v w, hostStep (.pollRead 1) { full with
        phase := .awaitingResponse, pendingRequest := true, incoming := frameE6 } = .next v ∧
      v.results = full.results ++ [.raised .overflow] ∧
      hostStep (.pollExtract true) v = .next w ∧ w.results = v.results ++ [.empty]) :=
  ⟨rfl, ⟨_, rfl, by decide⟩, ⟨_, rfl, by decide⟩, ⟨_, rfl, by decide⟩, ⟨_, _, rfl, rfl, by decide⟩,
    ⟨_, _, rfl, rfl, by decide⟩, ⟨_, _, rfl, by decide, rfl, by decide⟩⟩

theorem witness_NoSecondRequestWhilePending :
    (awaiting []).HostInv ∧ (awaiting []).pendingRequest = true ∧
    (∃ u, hostStep (.tick (tickOf 0)) (awaiting []) = .next u) ∧
    (∃ u, hostStep (.pollRead 3) (awaiting frameE6) = .next u) ∧
    (∃ u, hostStep (.pollExtract true) (awaiting []) = .next u) ∧
    ∃ u, hostStep .sendStatusRequest (awaiting []) = .next u :=
  ⟨by unfold State.HostInv; decide, by decide, ⟨_, rfl⟩, ⟨_, rfl⟩, ⟨_, rfl⟩, _, rfl⟩

theorem witness_TransportInputsTouchOnlyTheReadSide :
    (presenting full (.host (.received frameE6))).pending = .host (.received frameE6) :: [] ∧
    (presenting (awaiting frameE6) (.host (.lost 9))).pending = .host (.lost 9) :: [] := by decide

/-- The flag rises with the tick's request, and falls with a Frame, an I/O error, a close. -/
theorem witness_FlagChangesOnlyAsTheRuleSays :
    (presenting (hostIn .awaitingRequest) (.host (.tick (tickOf 0)))).HostInv ∧
    (presenting (hostIn .awaitingRequest) (.host (.tick (tickOf 0)))).pendingRequest = false ∧
    (∃ u, step (presenting (hostIn .awaitingRequest) (.host (.tick (tickOf 0)))) = .next u ∧
      u.pendingRequest = true) ∧
    (presenting (awaiting frameE6) (.host .close)).HostInv ∧
    (∃ u, step (presenting (awaiting frameE6) (.host (.tick (tickOf 8)))) = .next u ∧
      u.pendingRequest = false) ∧
    (∃ u, step (presenting (awaiting []) (.host (.ioError .readError))) = .next u ∧
      u.pendingRequest = false) ∧
    ∃ u, step (presenting (awaiting []) (.host .close)) = .next u ∧ u.pendingRequest = false := by
  refine ⟨by unfold State.HostInv; decide, by decide, ⟨_, rfl, rfl⟩,
    by unfold State.HostInv; decide, ⟨_, rfl, by decide⟩, ⟨_, rfl, by decide⟩, _, rfl, by decide⟩

theorem witness_IoErrorFaultsTheSession :
    (hostIn .faulted).phase = .faulted ∧
    (hostIn .idle).phase ≠ .faulted ∧ (hostIn .awaitingRequest).phase ≠ .faulted ∧
    (awaiting []).phase ≠ .faulted := by decide

/-- A tick, which keeps the host Faulted, and a connect. -/
theorem witness_FaultedUntilConnect :
    (presenting (hostIn .faulted) (.host .connect)).pending = .host .connect :: [] ∧
    (presenting (hostIn .faulted) (.host .connect)).phase = .faulted ∧
    (∃ u, step (presenting (hostIn .faulted) (.host (.tick (tickOf 0)))) = .next u) ∧
    ∃ u, step (presenting (hostIn .faulted) (.host .connect)) = .next u ∧
      u.phase = .awaitingRequest := ⟨rfl, by decide, ⟨_, rfl⟩, _, rfl, by decide⟩

theorem witness_CommandSendIsFireAndForget :
    (hostIn .awaitingRequest).phase = .awaitingRequest ∧ (awaiting []).phase = .awaitingResponse ∧
    (fill 255 0#8).length ≤ 255 ∧ 255 < (fill 256 0#8).length := by
  refine ⟨by decide, by decide, by simp, by simp⟩

/-- E6 in a buffer it just fits, read whole. -/
theorem witness_ResponseReachesTheConsumer :
    let s := { awaiting [] with cfg := (box 9 []).cfg }
    Mem.Wf s.rxBuf ∧ s.phase = .awaitingResponse ∧ s.rxLen = 0 ∧ s.incoming = [] ∧
    (0xF0#8, 0xA1#8) ∈ s.cfg.recog ∧ [1#8, 2#8, 3#8].length ≤ 255 ∧
    [1#8, 2#8, 3#8].length + 5 = s.cfg.maxOcc ∧ [1#8, 2#8, 3#8].length + 5 = (tickOf 8).read ∧
    (0x19#8).toNat = ((0x10#8).toNat + [1#8, 2#8, 3#8].length + byteSum [1#8, 2#8, 3#8]) % 256 := by
  decide

theorem witness_DecoderReadsTheStatedFields : 119 ≤ (fill 119 0#8).length ∧ 5 < 6 := by simp

/-- A field filled to its last byte, and one of nulls only. -/
theorem witness_TextFieldsReadToTheirPadding :
    32 ≤ 32 ∧ (fill 32 0x41#8).length ≤ 32 ∧ (∀ c ∈ fill 32 0x41#8, c ≠ 0#8) ∧
    ([] : List Byte).length ≤ 0 := by
  refine ⟨by decide, by simp, fun c hc => ?_, by simp⟩
  rw [List.eq_of_mem_replicate hc]
  decide

theorem witness_ProtectionStateCodes : 6 < (7#8).toNat ∧ (6#8).toNat ≤ 6 ∧ (0#8).toNat ≤ 6 := by
  decide

theorem witness_UnknownCodesCarryTheirPayload :
    0#8 ∉ [255#8, 192#8, 195#8, 196#8, 219#8, 221#8, 222#8, 223#8, 224#8] ∧
    254#8 ∉ [255#8, 192#8, 195#8, 196#8, 219#8, 221#8, 222#8, 223#8, 224#8] := by decide

end Sys2Proof.Tests
end

section
/-! The checksum (spec R65, R66): the sum of a payload's bytes and the 8-bit accumulator that wraps on
every addition; and the codes of results and causes (R73, R200). -/

namespace Sys2Proof.Machine

@[simp] theorem byteSum_nil : byteSum [] = 0 := rfl

@[simp] theorem byteSum_cons (b : Byte) (bs : List Byte) :
    byteSum (b :: bs) = b.toNat + byteSum bs := by
  simp [byteSum]

/-- A byte is at most 255, so a sequence's sum is at most 255 for each of its bytes. -/
theorem byteSum_le (bs : List Byte) : byteSum bs ≤ 255 * bs.length := by
  induction bs with
  | nil => simp
  | cons b bs ih =>
    have hb : b.toNat < 256 := b.isLt
    rw [byteSum_cons, List.length_cons]
    omega

/-- The idea of R66: reduction mod 256 commutes with addition, here with every addition of the fold. -/
theorem foldl_add_eq_add_ofNat_byteSum (acc : Byte) (bs : List Byte) :
    bs.foldl (· + ·) acc = acc + BitVec.ofNat 8 (byteSum bs) := by
  induction bs generalizing acc with
  | nil => simp
  | cons b bs ih =>
    rw [List.foldl_cons, ih, byteSum_cons, BitVec.ofNat_add, BitVec.ofNat_toNat, BitVec.setWidth_eq,
      BitVec.add_assoc]

/-- The 8-bit accumulator computes the checksum of R65, for every payload and every length byte (R66). -/
theorem checksumStepwise_eq_checksum (subCode n : Byte) (payload : List Byte) :
    checksumStepwise subCode n payload = checksum subCode n payload := by
  rw [checksumStepwise, foldl_add_eq_add_ofNat_byteSum]
  apply BitVec.eq_of_toNat_eq
  simp [checksum]

/-- The length byte of a payload stands for its length in the checksum: both agree mod 256. -/
theorem checksum_ofNat_length (subCode : Byte) (payload : List Byte) :
    checksum subCode (BitVec.ofNat 8 payload.length) payload =
      BitVec.ofNat 8 ((subCode.toNat + payload.length + byteSum payload) % 256) := by
  have hmod : (subCode.toNat + payload.length % 256 + byteSum payload) % 256 =
      (subCode.toNat + payload.length + byteSum payload) % 256 := by omega
  rw [checksum, BitVec.toNat_ofNat, hmod]

/-- Settles O17: 255 + 255 + 255 * 255 = 65535 bounds the sum, and the accumulator's value is the
checksum. -/
theorem checksumAccumulatesInEightBits : Obligations.ChecksumAccumulatesInEightBits := by
  intro sub p hlen
  constructor
  · have hsub : sub.toNat < 256 := sub.isLt
    have hsum := byteSum_le p
    omega
  · rw [checksumStepwise_eq_checksum, checksum_ofNat_length]

/-- Settles O42: each code is an equation of `Result.code` or `Exceptional.code`. -/
theorem resultAndCauseCodes : Obligations.ResultAndCauseCodes := by
  intro f p n c reason t sub e a
  exact ⟨rfl, rfl, rfl, rfl, rfl, rfl⟩

end Sys2Proof.Machine
end

section
/-! ENCODE (spec R90 to R95): what it records, the frame it builds byte by byte, what SCAN makes of a
frame, and that a result recorded before a receive operation changes nothing for it. -/

namespace Sys2Proof.Machine

/-- The result ENCODE hands the host, a function of its operands alone (R93). -/
def encodeResult (marker typeCode subCode : Byte) (payload : List Byte) : Result :=
  if 255 < payload.length then .raised (.encodeLengthViolation payload.length)
  else .encoded (buildFrame marker typeCode subCode payload)

/-- ENCODE records its one result and does nothing else. -/
theorem exec_encode (m t sub : Byte) (p : List Byte) (s : State) :
    exec (.encode m t sub p) s = .next (s.record (encodeResult m t sub p)) := by
  by_cases h : 255 < p.length <;>
    simp [exec, execEncode, State.encodeOp, encodeFrame, encodeResult, State.raise, h]

theorem exec_encode_fits (m t sub : Byte) {p : List Byte} (s : State) (h : p.length ≤ 255) :
    exec (.encode m t sub p) s = .next (s.record (.encoded (buildFrame m t sub p))) := by
  rw [exec_encode, encodeResult, if_neg (Nat.not_lt.2 h)]

theorem exec_encode_too_long (m t sub : Byte) {p : List Byte} (s : State) (h : 255 < p.length) :
    exec (.encode m t sub p) s = .next (s.raise (.encodeLengthViolation p.length)) := by
  rw [exec_encode, encodeResult, if_pos h, State.raise]

theorem exec_scan (b : List Byte) (s : State) :
    exec (.scan b) s = .next (s.record (.scanned (scanBytes s.cfg.recog b))) := rfl

/-! ### The bytes of the frame -/

/-- ENCODE's frame is the wire frame whose checksum byte is the one of R65. -/
theorem buildFrame_eq_wireBytes (m t sub : Byte) (p : List Byte) :
    buildFrame m t sub p = wireBytes m t sub p (checksum sub (BitVec.ofNat 8 p.length) p) := rfl

@[simp] theorem wireBytes_length (m t sub : Byte) (p : List Byte) (c : Byte) :
    (wireBytes m t sub p c).length = p.length + 5 := by
  simp [wireBytes]

theorem wireBytes_getD_lengthByte (m t sub : Byte) (p : List Byte) (c : Byte) :
    (wireBytes m t sub p c).getD 3 0#8 = BitVec.ofNat 8 p.length := rfl

theorem wireBytes_getD_payload (m t sub : Byte) {p : List Byte} (c : Byte) {k : Nat}
    (h : k < p.length) : (wireBytes m t sub p c).getD (4 + k) 0#8 = p.getD k 0#8 := by
  rw [Nat.add_comm 4 k]
  exact List.getD_append p [c] 0#8 k h

theorem wireBytes_getD_checksum (m t sub : Byte) (p : List Byte) (c : Byte) :
    (wireBytes m t sub p c).getD (p.length + 4) 0#8 = c := by
  calc (wireBytes m t sub p c).getD (p.length + 4) 0#8
      = [c].getD (p.length - p.length) 0#8 := List.getD_append_right p [c] 0#8 p.length le_rfl
    _ = c := by simp

/-- From the sub-code on, a frame has no byte of its marker or type code (R94). -/
theorem buildFrame_drop_two (m t m' t' sub : Byte) (p : List Byte) :
    (buildFrame m' t' sub p).drop 2 = (buildFrame m t sub p).drop 2 := rfl

/-- The empty payload's frame: its checksum is the sub-code (R94). -/
theorem buildFrame_nil (m t sub : Byte) : buildFrame m t sub [] = [m, t, sub, 0#8, sub] := by
  rw [buildFrame, ← checksumStepwise_eq_checksum]
  simp [checksumStepwise]

/-! ### SCAN on a frame -/

/-- A frame with a recognised pair is judged at offset 0, by its checksum byte alone (R105, R106). -/
theorem scanBytes_wireBytes {recog : List (Byte × Byte)} {m t : Byte} (sub : Byte) {p : List Byte}
    (c : Byte) (hpair : (m, t) ∈ recog) (hlen : p.length ≤ 255) :
    scanBytes recog (wireBytes m t sub p c) =
      if checksum sub (BitVec.ofNat 8 p.length) p = c then .validFrame t sub p (p.length + 5)
      else .invalidFrame
        (.checksumMismatch 0 (checksum sub (BitVec.ofNat 8 p.length) p) c) := by
  have hn : (BitVec.ofNat 8 p.length).toNat = p.length := by
    rw [BitVec.toNat_ofNat]; omega
  have hfirst : FirstCandidate recog (wireBytes m t sub p c) 0 := firstCandidate_zero hpair
  calc scanBytes recog (wireBytes m t sub p c)
      = classify 0 t (sub :: BitVec.ofNat 8 p.length :: (p ++ [c])) := scanBytes_of_first hfirst
    _ = _ := by
      rw [classify_complete 0 t sub _ _ (by simp [hn]), hn]
      simp

/-- The round trip of R95, for the functions behind ENCODE and SCAN. -/
theorem scanBytes_buildFrame {recog : List (Byte × Byte)} {m t : Byte} (sub : Byte) {p : List Byte}
    (hpair : (m, t) ∈ recog) (hlen : p.length ≤ 255) :
    scanBytes recog (buildFrame m t sub p) = .validFrame t sub p (p.length + 5) := by
  rw [buildFrame_eq_wireBytes, scanBytes_wireBytes sub _ hpair hlen, if_pos rfl]

/-! ### Receive operations do not look at the results -/

theorem exec_append_eq_next {chunk : List Byte} {s v : State} :
    exec (.append chunk) s = .next v ↔ ∃ r, s.appendOp chunk = .ok (v, r) := by
  rcases h : s.appendOp chunk with f | ⟨t, r⟩ <;> simp [exec, execAppend, h]

theorem exec_extract_eq_next {s v : State} :
    exec .extract s = .next v ↔ ∃ r, s.extractOp = .ok (v, r) := by
  rcases h : s.extractOp with f | ⟨t, r⟩ <;> simp [exec, execExtract, h]

/-- APPEND after one more recorded result: same result, same buffer, same length. -/
theorem State.appendOp_record {s v : State} {chunk : List Byte} {r : Result} (x : Result)
    (h : s.appendOp chunk = .ok (v, r)) :
    ∃ w, (s.record x).appendOp chunk = .ok (w, r) ∧ w.rxBuf = v.rxBuf ∧ w.rxLen = v.rxLen := by
  rcases s.appendOp_cases chunk with ⟨hfit, he⟩ | ⟨hover, he⟩ <;> rw [he] at h <;> cases h
  · exact ⟨_, State.appendOp_fits (s := s.record x) hfit, rfl, rfl⟩
  · exact ⟨_, State.appendOp_overflows (s := s.record x) hover, rfl, rfl⟩

/-- EXTRACT after one more recorded result: same result, same buffer, same length. -/
theorem State.extractOp_record {s v : State} {r : Result} (x : Result)
    (h : s.extractOp = .ok (v, r)) :
    ∃ w, (s.record x).extractOp = .ok (w, r) ∧ w.rxBuf = v.rxBuf ∧ w.rxLen = v.rxLen := by
  have hcap : s.rxLen ≤ s.cfg.capacity := State.rxLen_le_of_extractOp h
  have hx := State.extractOp_eq (s := s.record x) hcap
  rw [State.record_cfg, State.record_contents] at hx
  rcases State.extractOp_cases hcap with
    ⟨t, sub, p, c, hscan, _, _, he⟩ | ⟨i, e, a, hscan, _, he⟩ | ⟨hscan, he⟩ | ⟨hscan, he⟩ <;>
    rw [he] at h <;> cases h <;> rw [hscan] at hx <;> exact ⟨_, hx, rfl, rfl⟩

/-- A receive operation issued after one more recorded result does what it does without it. -/
theorem exec_receive_record {i : Instr} {s v : State} (x : Result)
    (hi : i = .extract ∨ i = .clear ∨ ∃ chunk, i = .append chunk) (h : exec i s = .next v) :
    ∃ w r, exec i (s.record x) = .next w ∧
      v.results = s.results ++ [r] ∧ w.results = s.results ++ [x, r] ∧
      w.rxBuf = v.rxBuf ∧ w.rxLen = v.rxLen := by
  rcases hi with rfl | rfl | ⟨chunk, rfl⟩
  · obtain ⟨r, hv⟩ := exec_extract_eq_next.1 h
    obtain ⟨w, hw, hbuf, hrx⟩ := State.extractOp_record x hv
    exact ⟨w, r, exec_extract_eq_next.2 ⟨r, hw⟩, (State.extractOp_frame hv).2,
      by simp [(State.extractOp_frame hw).2], hbuf, hrx⟩
  · cases h
    exact ⟨(s.record x).clearOp, .ok, rfl, rfl, by simp [State.clearOp], rfl, rfl⟩
  · obtain ⟨r, hv⟩ := exec_append_eq_next.1 h
    obtain ⟨w, hw, hbuf, hrx⟩ := State.appendOp_record x hv
    exact ⟨w, r, exec_append_eq_next.2 ⟨r, hw⟩, (State.appendOp_frame hv).2,
      by simp [(State.appendOp_frame hw).2], hbuf, hrx⟩

/-! ### The statements -/

/-- Settles O18: the length test decides, and the length byte stands for the length in the checksum. -/
theorem encodeBuildsTheFrameOrRefuses : Obligations.EncodeBuildsTheFrameOrRefuses := by
  intro m t sub p s
  constructor
  · intro hlen
    rw [exec_encode_fits m t sub s hlen, buildFrame, checksum_ofNat_length]
    rfl
  · exact exec_encode_too_long m t sub s

/-- Settles O19: each case is a fact about the bytes of the one frame ENCODE builds. -/
theorem encodeCornerCases : Obligations.EncodeCornerCases := by
  constructor
  · intro m t sub p s hlen
    have hsum : (buildFrame m t sub p).getD (p.length + 4) 0#8 =
        checksum sub (BitVec.ofNat 8 p.length) p := wireBytes_getD_checksum m t sub p _
    refine ⟨buildFrame m t sub p, exec_encode_fits m t sub s hlen, wireBytes_length m t sub p _,
      ?empty, ?longest, ?stepwise, ?reduced, ?copied, ?otherPair⟩
    case empty =>
      rintro rfl
      exact buildFrame_nil m t sub
    case longest =>
      intro hfull
      exact ⟨by rw [buildFrame_eq_wireBytes, wireBytes_length, hfull],
        by rw [buildFrame_eq_wireBytes, wireBytes_getD_lengthByte, hfull]⟩
    case stepwise => rw [hsum, checksumStepwise_eq_checksum]
    case reduced => rw [hsum, checksum_ofNat_length]
    case copied => exact fun k hk => wireBytes_getD_payload m t sub _ hk
    case otherPair =>
      exact fun m' t' => ⟨_, exec_encode_fits m' t' sub s hlen, buildFrame_drop_two m t m' t' sub p⟩
  · exact fun s => exec_encode_fits 0xF1#8 0xA1#8 0xFF#8 s (by decide)

/-- Settles O20: SCAN finds the frame at offset 0, complete and with the checksum it computes itself. -/
theorem scanReadsBackEncode : Obligations.ScanReadsBackEncode := by
  intro m t sub p s hpair hlen
  refine ⟨buildFrame m t sub p, exec_encode_fits m t sub s hlen, ?_⟩
  rw [exec_scan, scanBytes_buildFrame sub hpair hlen]
  rfl

/-- Settles O21: ENCODE records one result, and no receive operation looks at the results. -/
theorem encodeDisturbsNoReceiveOperation : Obligations.EncodeDisturbsNoReceiveOperation := by
  intro m t sub p
  exact ⟨encodeResult m t sub p, exec_encode m t sub p,
    fun _ _ _ hi h => exec_receive_record (encodeResult m t sub p) hi h⟩

end Sys2Proof.Machine
end

section
/-! SCAN (spec R100 to R107, R110, R112): the first candidate judged by the bytes at its own offsets,
and what stays of a verdict when bytes are appended. -/

namespace Sys2Proof.Machine

variable {recog : List (Byte × Byte)} {b : List Byte} {i : Nat}

/-! ### The first candidate in index terms -/

theorem drop_eq_getD_cons (h : i < b.length) : b.drop i = b.getD i 0#8 :: b.drop (i + 1) := by
  rw [List.drop_eq_getElem_cons h, List.getD_eq_getElem b 0#8 h]

/-- Only the candidate's two bytes, and at most one of its header, are left (R103). -/
theorem scanBytes_short_header (hi : FirstCandidate recog b i) (hlen : b.length < i + 4) :
    scanBytes recog b = .partialFrame := by
  rw [scanBytes_of_first hi]
  apply classify_short_header
  rw [List.length_drop]
  omega

/-- With its header there, the candidate is judged by sub-code, length byte and what follows. -/
theorem scanBytes_of_header (hi : FirstCandidate recog b i) (hlen : i + 4 ≤ b.length) :
    scanBytes recog b = classify i (b.getD (i + 1) 0#8)
      (b.getD (i + 2) 0#8 :: b.getD (i + 3) 0#8 :: b.drop (i + 4)) := by
  rw [scanBytes_of_first hi, drop_eq_getD_cons (i := i + 2) (by omega),
    drop_eq_getD_cons (i := i + 3) (by omega)]

/-- The header is there, a byte of the payload or the checksum byte is not (R104). -/
theorem scanBytes_short_body (hi : FirstCandidate recog b i) (hhead : i + 4 ≤ b.length)
    (hlen : b.length < i + (b.getD (i + 3) 0#8).toNat + 5) :
    scanBytes recog b = .partialFrame := by
  rw [scanBytes_of_header hi hhead]
  apply classify_short_body
  rw [List.length_drop]
  omega

/-- With all its bytes there, the candidate is judged by its checksum byte (R105, R106). -/
theorem scanBytes_complete {n : Nat} {expected actual : Byte} (hi : FirstCandidate recog b i)
    (hn : n = (b.getD (i + 3) 0#8).toNat) (hlen : i + n + 5 ≤ b.length)
    (hexpected : expected =
      checksum (b.getD (i + 2) 0#8) (b.getD (i + 3) 0#8) ((b.drop (i + 4)).take n))
    (hactual : actual = b.getD (i + 4 + n) 0#8) :
    scanBytes recog b =
      if expected = actual then
        .validFrame (b.getD (i + 1) 0#8) (b.getD (i + 2) 0#8) ((b.drop (i + 4)).take n) (i + n + 5)
      else .invalidFrame (.checksumMismatch i expected actual) := by
  have hbody : (b.getD (i + 3) 0#8).toNat + 1 ≤ (b.drop (i + 4)).length := by
    rw [List.length_drop]
    omega
  have hlast : (b.drop (i + 4)).getD n 0#8 = b.getD (i + 4 + n) 0#8 := by
    simp [List.getD_eq_getElem?_getD]
  rw [scanBytes_of_header hi (by omega), classify_complete _ _ _ _ _ hbody, ← hn, hlast,
    ← hexpected, ← hactual]

/-- A byte whose value is the sum of R65 is the checksum. -/
theorem eq_checksum_of_toNat {expected sub n : Byte} {p : List Byte}
    (h : expected.toNat = (sub.toNat + n.toNat + byteSum p) % 256) :
    expected = checksum sub n p := by
  rw [checksum, ← h, BitVec.ofNat_toNat, BitVec.setWidth_eq]

/-! ### More bytes behind the sequence -/

theorem scanBytes_eq_noFrame_iff : scanBytes recog b = .noFrame ↔ ∀ j, ¬ Candidate recog b j := by
  constructor
  · intro h j hj
    rcases scanFrom_cases recog 0 b with ⟨_, hnone⟩ | ⟨k, _, hk⟩
    · exact hnone j hj
    · exact classify_ne_noFrame _ _ _ (hk.symm.trans h)
  · exact scanBytes_of_none

/-- A candidate is two bytes: those inside `b` do not see what is appended to it. -/
theorem candidate_append (t : List Byte) (h : i + 1 < b.length) :
    Candidate recog (b ++ t) i ↔ Candidate recog b i := by
  have hlong : i + 1 < (b ++ t).length := by
    rw [List.length_append]
    omega
  rw [Candidate, Candidate, List.getD_append b t 0#8 i (by omega),
    List.getD_append b t 0#8 (i + 1) h]
  simp only [h, hlong, true_and]

theorem FirstCandidate.append (t : List Byte) (hi : FirstCandidate recog b i) :
    FirstCandidate recog (b ++ t) i := by
  obtain ⟨⟨hlen, hmem⟩, hleast⟩ := hi
  refine ⟨(candidate_append t hlen).2 ⟨hlen, hmem⟩, fun j hj hc => hleast j hj ?_⟩
  exact (candidate_append t (by omega)).1 hc

/-- A verdict on a complete candidate looks at no byte behind its checksum. -/
theorem classify_append (ty : Byte) {rest : List Byte} (t : List Byte)
    (h : classify i ty rest ≠ .partialFrame) :
    classify i ty (rest ++ t) = classify i ty rest := by
  rcases classify_cases i ty rest with hp | ⟨sub, n, body, rfl, hn, _⟩
  · exact absurd hp h
  · have hn' : n.toNat + 1 ≤ (body ++ t).length := by
      rw [List.length_append]
      omega
    rw [List.cons_append, List.cons_append, classify_complete i ty sub n (body ++ t) hn',
      classify_complete i ty sub n body hn, List.take_append_of_le_length (by omega),
      List.getD_append body t 0#8 n.toNat hn]

theorem scanBytes_append_of_first (t : List Byte) (hi : FirstCandidate recog b i) :
    scanBytes recog (b ++ t) = classify i (b.getD (i + 1) 0#8) (b.drop (i + 2) ++ t) := by
  have hlen : i + 1 < b.length := hi.1.1
  rw [scanBytes_of_first (hi.append t), List.getD_append b t 0#8 (i + 1) hlen,
    List.drop_append_of_le_length hlen]

/-- A verdict, valid or invalid, is final (R112 (a)). -/
theorem scanBytes_append_of_verdict (t : List Byte) (hnone : scanBytes recog b ≠ .noFrame)
    (hpartial : scanBytes recog b ≠ .partialFrame) :
    scanBytes recog (b ++ t) = scanBytes recog b := by
  rcases scanFrom_cases recog 0 b with ⟨h, _⟩ | ⟨j, hj, _⟩
  · exact absurd h hnone
  · rw [scanBytes_of_first hj] at hpartial
    rw [scanBytes_append_of_first t hj, scanBytes_of_first hj, classify_append _ t hpartial]

/-! ### The statements -/

/-- Settles O22: header, body and checksum of the first candidate, each read at its own offset. -/
theorem scanClassifiesTheFirstCandidate : Obligations.ScanClassifiesTheFirstCandidate := by
  intro b s
  have hexec {r : ScanResult} (h : scanBytes s.cfg.recog b = r) :
      exec (.scan b) s = .next { s with results := s.results ++ [.scanned r] } := by
    rw [exec_scan, h]
    rfl
  refine ⟨fun hnone => hexec (scanBytes_of_none hnone), fun i hi => ⟨?header, ?body⟩⟩
  case header => exact fun hlen => hexec (scanBytes_short_header hi hlen)
  case body =>
    rintro n hhead rfl
    refine ⟨fun hlen => hexec (scanBytes_short_body hi hhead hlen), ?complete⟩
    intro hlen expected actual hexpected hactual
    have hverdict := scanBytes_complete hi rfl hlen (eq_checksum_of_toNat hexpected) hactual
    exact ⟨fun heq => hexec (hverdict.trans (if_pos heq)),
      fun hne => hexec (hverdict.trans (if_neg hne))⟩

/-- Settles O23: appended bytes move no candidate inside `b` and no byte of a complete one; a new
candidate needs an appended byte. -/
theorem scanExtensionLaw : Obligations.ScanExtensionLaw := by
  intro recog b t
  refine ⟨?invalid, ?valid, ?partialStays, ?none⟩
  case invalid =>
    rintro ⟨reason, h⟩
    exact scanBytes_append_of_verdict t (by simp [h]) (by simp [h])
  case valid =>
    rintro ⟨ty, sub, p, c, h⟩
    exact scanBytes_append_of_verdict t (by simp [h]) (by simp [h])
  case partialStays =>
    intro i _ hi
    refine ⟨hi.append t, ?_⟩
    rw [scanBytes_append_of_first t hi]
    exact classify_ne_noFrame _ _ _
  case none =>
    intro i hnone hi
    by_contra hlt
    have hinside : i + 1 < b.length := by omega
    exact scanBytes_eq_noFrame_iff.1 hnone i ((candidate_append t hinside).1 hi.1)

end Sys2Proof.Machine
end

section
/-! The receive assembler (spec R120 to R128): the buffer a fitting APPEND leaves, byte by byte, and
APPEND and EXTRACT as one equation per outcome. -/

namespace Sys2Proof.Machine

/-! ### The buffer after a fitting APPEND -/

theorem State.appended_wf {s : State} (h : Mem.Wf s.rxBuf) (chunk : List Byte) :
    Mem.Wf (s.appended chunk).rxBuf := Mem.writeSpan_wf h s.rxLen chunk

/-- The chunk stands behind what was there, in its own order (R42, R121). -/
theorem State.byteAt_appended_inside {s : State} (h : Mem.Wf s.rxBuf) {chunk : List Byte} {k : Nat}
    (hk : k < chunk.length) :
    Mem.byteAt (s.appended chunk).rxBuf (s.rxLen + k) = chunk.getD k 0#8 := by
  rw [List.getD_eq_getElem chunk 0#8 hk]
  exact Mem.byteAt_writeSpan_inside h s.rxLen chunk hk

theorem State.byteAt_appended_outside (s : State) {chunk : List Byte} {a : Nat}
    (ha : a < s.rxLen ∨ s.rxLen + chunk.length ≤ a) :
    Mem.byteAt (s.appended chunk).rxBuf a = Mem.byteAt s.rxBuf a :=
  Mem.byteAt_writeSpan_outside s.rxBuf chunk ha

/-! ### One equation per outcome -/

theorem exec_append_fits {s : State} {chunk : List Byte}
    (h : s.rxLen + chunk.length ≤ s.cfg.maxOcc) :
    exec (.append chunk) s = .next ((s.appended chunk).record .ok) :=
  exec_append_eq_next.2 ⟨.ok, State.appendOp_fits h⟩

theorem exec_append_overflows {s : State} {chunk : List Byte}
    (h : s.cfg.maxOcc < s.rxLen + chunk.length) :
    exec (.append chunk) s = .next (s.emptyBuffer.raise .overflow) :=
  exec_append_eq_next.2 ⟨.raised .overflow, State.appendOp_overflows h⟩

theorem exec_clear (s : State) : exec .clear s = .next (s.emptyBuffer.record .ok) := rfl

theorem exec_extract_of_partial {s : State} (h : s.rxLen ≤ s.cfg.capacity)
    (hscan : scanBytes s.cfg.recog s.contents = .partialFrame) :
    exec .extract s = .next (s.record .awaiting) := by
  refine exec_extract_eq_next.2 ⟨.awaiting, ?_⟩
  rw [State.extractOp_eq h, hscan]

theorem exec_extract_of_none {s : State} (h : s.rxLen ≤ s.cfg.capacity)
    (hscan : scanBytes s.cfg.recog s.contents = .noFrame) :
    exec .extract s = .next (s.record .empty) := by
  refine exec_extract_eq_next.2 ⟨.empty, ?_⟩
  rw [State.extractOp_eq h, hscan]

theorem State.record_record (s : State) (r q : Result) :
    (s.record r).record q = { s with results := s.results ++ [r, q] } := by
  rw [State.record, State.record, List.append_assoc, List.singleton_append]

/-! ### The statements -/

/-- Settles O27: APPEND writes the one span behind the occupied bytes and nothing else. -/
theorem appendStoresTheChunk : Obligations.AppendStoresTheChunk := by
  intro s chunk hwf hfit
  obtain ⟨hsame, hresults⟩ := State.appendOp_frame (State.appendOp_fits hfit)
  exact ⟨_, exec_append_fits hfit, rfl, fun _ hk => State.byteAt_appended_inside hwf hk,
    fun _ ha => s.byteAt_appended_outside ha, State.appended_wf hwf chunk, hresults, hsame⟩

/-- Settles O28: the overflowing APPEND and CLEAR both empty the buffer, and differ in the result. -/
theorem appendOverflowEmptiesTheBuffer : Obligations.AppendOverflowEmptiesTheBuffer :=
  fun s _ hover => ⟨exec_append_overflows hover, exec_clear s⟩

/-- Settles O32: a waiting EXTRACT records its result only, so the second one scans the same bytes. -/
theorem extractWaitsWithoutAFrame : Obligations.ExtractWaitsWithoutAFrame := by
  intro s hocc
  have hcap : s.rxLen ≤ s.cfg.capacity := hocc.trans (maxOcc_le s.cfg)
  constructor
  · intro hscan
    rw [← State.record_record]
    exact ⟨exec_extract_of_partial hcap hscan,
      exec_extract_of_partial (s := s.record .awaiting) hcap hscan⟩
  · intro hscan
    rw [← State.record_record]
    exact ⟨exec_extract_of_none hcap hscan,
      exec_extract_of_none (s := s.record .empty) hcap hscan⟩

end Sys2Proof.Machine
end

section
/-! CLEAR (spec R140, R141) as a reset of the receive buffer: what a second CLEAR and an EXTRACT do in
the state it leaves. -/

namespace Sys2Proof.Machine

/-- Without an occupied byte there is nothing to scan: EXTRACT waits (R128). -/
theorem exec_extract_of_unoccupied {s : State} (h : s.rxLen = 0) :
    exec .extract s = .next (s.record .empty) := by
  have hcontents : s.contents = [] := List.length_eq_zero_iff.1 (s.contents_length.trans h)
  apply exec_extract_of_none
  · rw [h]
    exact Nat.zero_le _
  · rw [hcontents]
    rfl

/-- In an emptied buffer CLEAR only records its Ok (R141). -/
theorem exec_clear_of_unoccupied {s : State} (h : s.rxLen = 0) :
    exec .clear s = .next (s.record .ok) := by
  have hsame : s.emptyBuffer = s := by
    rw [State.emptyBuffer, State.setRxLen, ← h]
  rw [exec_clear, hsame]

/-- Settles O38: CLEAR is the emptied buffer with an Ok, and with nothing occupied a second CLEAR and
an EXTRACT record their result only. -/
theorem clearEmptiesTheBuffer : Obligations.ClearEmptiesTheBuffer := by
  intro s
  have hafter (r : Result) : (s.emptyBuffer.record .ok).record r =
      { s with rxLen := 0, results := s.results ++ [.ok, r] } :=
    State.record_record s.emptyBuffer .ok r
  refine ⟨exec_clear s, ?again, ?extract⟩
  case again =>
    rw [← hafter]
    exact exec_clear_of_unoccupied (s := s.emptyBuffer.record .ok) rfl
  case extract =>
    rw [← hafter]
    exact exec_extract_of_unoccupied (s := s.emptyBuffer.record .ok) rfl

end Sys2Proof.Machine
end

section
/-! Faulted (spec R158, R159): no operation of the block and nothing that passes by moves the host, and
of the host's events connect alone moves it out of Faulted. -/

namespace Sys2Proof.Machine

/-! ### What is no host event leaves the host where it is -/

/-- An instruction is the block's or the wire's: it has no part in the host's state (R27, R210). -/
theorem exec_phase {i : Instr} {s u : State} (h : exec i s = .next u) : u.phase = s.phase := by
  cases i with
  | encode m t sub p =>
    rw [exec_encode] at h
    cases h; rfl
  | append chunk =>
    obtain ⟨r, hr⟩ := exec_append_eq_next.1 h
    obtain ⟨⟨_, hphase, _⟩, _⟩ := State.appendOp_frame hr
    exact hphase
  | extract =>
    obtain ⟨r, hr⟩ := exec_extract_eq_next.1 h
    obtain ⟨⟨_, hphase, _⟩, _⟩ := State.extractOp_frame hr
    exact hphase
  | scan _ | clear | reserved5 _ | reserved6 _ | reserved7 _ => cases h; rfl
  | frameRxGetAll _ _ _ | frameTxGetAll _ _ _ | frameTxControl _ _ _ => cases h; rfl

@[simp] theorem State.carry_phase (s : State) (bs : List Byte) : (s.carry bs).phase = s.phase := by
  unfold State.carry
  split
  · exact s.transmit_phase bs
  · exact s.arrive_phase bs

@[simp] theorem State.passBy_phase (s : State) (p : Presented) : (s.passBy p).phase = s.phase := by
  cases p with
  | command _ => rfl
  | wire bs => exact s.carry_phase bs

/-! ### Host events in Faulted -/

theorem hostStep_connect_of_faulted {s : State} (hf : s.phase = .faulted) :
    hostStep .connect s = .next (s.clearOp.setHost .awaitingRequest false) := by
  simp only [hostStep, hostConnect, hf]

theorem hostSendTyped_of_faulted {s : State} (hf : s.phase = .faulted) (t sub : Byte)
    (p : List Byte) : hostSendTyped t sub p s = .refused .notConnected := by
  simp only [hostSendTyped, hf]

/-- Ticks do nothing in Faulted, sends and close are refused, a further I/O error leads back to it, and
the transport's bytes move no host. -/
theorem hostStep_faulted {e : HostEvent} {s u : State} (hf : s.phase = .faulted)
    (he : e ≠ .connect) (h : hostStep e s = .next u) : u.phase = .faulted := by
  cases e with
  | connect => exact absurd rfl he
  | tick _ | pollRead _ | pollExtract _ =>
    simp only [hostStep, hostTick, hostPollRead, hostPollExtract, hf] at h
    cases h; exact hf
  | ioError _ =>
    simp only [hostStep, hostIoError, hf] at h
    cases h; rfl
  | sendTyped _ _ _ | sendFloat _ _ _ | sendByte _ _ _ =>
    exact nomatch (hostSendTyped_of_faulted hf _ _ _).symm.trans h
  | sendStatusRequest | close =>
    simp only [hostStep, hostSendStatusRequest, hostClose, hf] at h
    cases h
  | received _ => cases h; exact hf
  | lost _ => cases h; exact hf

/-! ### Steps -/

theorem step_of_host {s : State} {e : HostEvent} {rest : List Stimulus}
    (h : s.pending = .host e :: rest) : step s = hostStep e (s.setPending rest) := by
  simp only [step, h]

/-- Settles O49: of what a step can run, only a host event touches the host's state, and of these only
connect leads out of Faulted. -/
theorem faultedUntilConnect : Obligations.FaultedUntilConnect := by
  intro s hf
  constructor
  · intro u hstep
    rcases step_cases hstep with ⟨_, rfl⟩ | ⟨p, _, _, _, _, rfl⟩ | ⟨_, _, _, _, _, hexec⟩ |
      ⟨e, rest, hpending, hhost⟩
    · exact .inl hf
    · exact .inl ((State.passBy_phase _ p).trans hf)
    · exact .inl ((exec_phase hexec).trans hf)
    · by_cases he : e = .connect
      · subst he
        rw [hostStep_connect_of_faulted (s := s.setPending rest) hf] at hhost
        cases hhost
        exact .inr ⟨rfl, rest, hpending⟩
      · exact .inl (hostStep_faulted (s := s.setPending rest) hf he hhost)
  · intro rest hpending
    exact ⟨_, (step_of_host hpending).trans (hostStep_connect_of_faulted hf), rfl⟩

end Sys2Proof.Machine
end

section
/-! The payload decoder (spec R180 to R187): it compares the sub-code with the code of all data, with
the code of the input voltage and with the narrower codes, in this order. -/

namespace Sys2Proof.Machine

/-- Outside the recognised set (R180) every comparison of the decoder fails, whatever the payload. -/
theorem decodeStatus_of_not_recognised {sub : Byte} (p : List Byte)
    (h : sub ∉ Config.allDataSub :: 192#8 :: narrowerCodes) :
    decodeStatus sub p = .unknown sub p := by
  obtain ⟨hAllData, hRest⟩ := List.ne_and_not_mem_of_not_mem_cons h
  obtain ⟨hInputVoltage, hNarrower⟩ := List.ne_and_not_mem_of_not_mem_cons hRest
  rw [decodeStatus, if_neg hAllData, if_neg hInputVoltage, if_neg hNarrower]

/-- Settles O56: the nine codes of the statement are the decoder's own, all data first, input voltage
next, then the narrower ones. -/
theorem unknownCodesCarryTheirPayload : Obligations.UnknownCodesCarryTheirPayload :=
  fun _ p h => decodeStatus_of_not_recognised p h

end Sys2Proof.Machine
end

section
/-! The decoder against the encoder (spec R60, R71, R72): for each reader of operands, what it accepts
is exactly what the encoder writes. Both directions of the round trip are uses of these equivalences. -/

namespace Sys2Proof

/-! ### Operand words -/

theorem takeByte_eq_ok {ws rest : List CmdWord} {b : Byte} :
    takeByte ws = .ok (b, rest) ↔ ws = b.toNat :: rest := by
  cases ws with
  | nil => simp [takeByte]
  | cons w ws =>
    by_cases hw : w < 256
    · have hb : BitVec.ofNat 8 w = b ↔ w = b.toNat := by
        rw [← BitVec.toNat_inj, BitVec.toNat_ofNat, Nat.mod_eq_of_lt hw]
      simp [takeByte, hw, hb]
    · have hne : w ≠ b.toNat := fun h => hw (h ▸ b.isLt)
      simp [takeByte, hw, hne]

theorem takeBytes_eq_ok {n : Nat} {ws rest : List CmdWord} {bs : List Byte} :
    takeBytes n ws = .ok (bs, rest) ↔ bs.length = n ∧ ws = bs.map BitVec.toNat ++ rest := by
  induction n generalizing ws bs with
  | zero =>
    cases bs <;> simp [takeBytes]
  | succ n ih =>
    rw [takeBytes]
    constructor
    · intro h
      rcases hb : takeByte ws with r | ⟨b, ws'⟩ <;> rw [hb] at h
      · cases h
      rcases hbs : takeBytes n ws' with r | ⟨bs', rest'⟩ <;> simp only [hbs] at h <;> cases h
      obtain ⟨hlen, rfl⟩ := ih.1 hbs
      exact ⟨by rw [List.length_cons, hlen], takeByte_eq_ok.1 hb⟩
    · rintro ⟨hlen, rfl⟩
      cases bs with
      | nil => cases hlen
      | cons b bs =>
        have hbs : takeBytes n (bs.map BitVec.toNat ++ rest) = .ok (bs, rest) :=
          ih.2 ⟨Nat.succ.inj hlen, rfl⟩
        rw [List.map_cons, List.cons_append, takeByte_eq_ok.2 rfl]
        simp only [hbs]

/-- A sequence operand is read back exactly from its length followed by its bytes (R72). -/
theorem takeLastSeq_eq_ok {ws : List CmdWord} {bs : List Byte} :
    takeLastSeq ws = .ok bs ↔ ws = seqWords bs := by
  cases ws with
  | nil => simp [takeLastSeq, seqWords]
  | cons n ws =>
    rw [takeLastSeq, seqWords]
    constructor
    · intro h
      rcases hbs : takeBytes n ws with r | ⟨bs', _ | ⟨w, rest⟩⟩ <;> rw [hbs] at h <;> cases h
      obtain ⟨rfl, rfl⟩ := takeBytes_eq_ok.1 hbs
      rw [List.append_nil]
    · intro h
      obtain ⟨rfl, rfl⟩ := List.cons.inj h
      rw [takeBytes_eq_ok.2 ⟨rfl, (List.append_nil _).symm⟩]

/-! ### Commands -/

theorem decodeEncode_eq_ok {ws : List CmdWord} {i : Instr} :
    decodeEncode ws = .ok i ↔
      ∃ m t sub p, i = .encode m t sub p ∧ ws = [m.toNat, t.toNat, sub.toNat] ++ seqWords p := by
  constructor
  · intro h
    rw [decodeEncode] at h
    rcases hbs : takeBytes 3 ws with r | ⟨bs, rest⟩ <;> rw [hbs] at h
    · cases h
    obtain ⟨hlen, rfl⟩ := takeBytes_eq_ok.1 hbs
    obtain ⟨m, t, sub, rfl⟩ := List.length_eq_three.1 hlen
    rcases hp : takeLastSeq rest with r | p <;> simp only [hp] at h <;> cases h
    rw [takeLastSeq_eq_ok.1 hp]
    exact ⟨m, t, sub, p, rfl, rfl⟩
  · rintro ⟨m, t, sub, p, rfl, rfl⟩
    have hhead : takeBytes 3 ([m.toNat, t.toNat, sub.toNat] ++ seqWords p) =
        .ok ([m, t, sub], seqWords p) := takeBytes_eq_ok.2 ⟨rfl, rfl⟩
    rw [decodeEncode, hhead]
    simp only [takeLastSeq_eq_ok.2 rfl]

theorem decodeSeqOp_eq_ok {f : List Byte → Instr} {ws : List CmdWord} {i : Instr} :
    decodeSeqOp f ws = .ok i ↔ ∃ bs, i = f bs ∧ ws = seqWords bs := by
  constructor
  · intro h
    rw [decodeSeqOp] at h
    rcases hbs : takeLastSeq ws with r | bs <;> rw [hbs] at h <;> cases h
    exact ⟨bs, rfl, takeLastSeq_eq_ok.1 hbs⟩
  · rintro ⟨bs, rfl, rfl⟩
    rw [decodeSeqOp, takeLastSeq_eq_ok.2 rfl]

theorem decodeNullary_eq_ok {j i : Instr} {ws : List CmdWord} :
    decodeNullary j ws = .ok i ↔ i = j ∧ ws = [] := by
  cases ws <;> simp [decodeNullary, eq_comm]

/-- What the encoder makes of a decoded command: the same operand words behind the bare op select. -/
theorem encode_of_decodeCommand {w : CmdWord} {ws : List CmdWord} {i : Instr}
    (h : decodeCommand (w :: ws) = .ok i) :
    i.wellFormed = true ∧ encode i = .command (opSelect w :: ws) := by
  have hlt : opSelect w < 8 := Nat.mod_lt _ (by decide)
  rw [decodeCommand] at h
  generalize opSelect w = op at h hlt
  match op, hlt with
  | 0, _ => obtain ⟨m, t, sub, p, rfl, rfl⟩ := decodeEncode_eq_ok.1 h; exact ⟨rfl, rfl⟩
  | 1, _ => obtain ⟨b, rfl, rfl⟩ := decodeSeqOp_eq_ok.1 h; exact ⟨rfl, rfl⟩
  | 2, _ => obtain ⟨c, rfl, rfl⟩ := decodeSeqOp_eq_ok.1 h; exact ⟨rfl, rfl⟩
  | 3, _ => obtain ⟨rfl, rfl⟩ := decodeNullary_eq_ok.1 h; exact ⟨rfl, rfl⟩
  | 4, _ => obtain ⟨rfl, rfl⟩ := decodeNullary_eq_ok.1 h; exact ⟨rfl, rfl⟩
  | 5, _ => cases h; exact ⟨rfl, rfl⟩
  | 6, _ => cases h; exact ⟨rfl, rfl⟩
  | 7, _ => cases h; exact ⟨rfl, rfl⟩

/-! ### Wire frames -/

theorem namedFrame_eq_ok {m t sub c : Byte} {p : List Byte} {i : Instr} :
    namedFrame m t sub p c = .ok i ↔
      (m = Config.rxMarker ∧ t = Config.getAllType ∧ i = .frameRxGetAll sub p c) ∨
      (m = Config.txMarker ∧ t = Config.getAllType ∧ i = .frameTxGetAll sub p c) ∨
      (m = Config.txMarker ∧ t = Config.controlType ∧ i = .frameTxControl sub p c) := by
  constructor
  · intro h
    rw [namedFrame] at h
    split_ifs at h with hrx htx hcontrol <;> cases h
    · exact .inl ⟨hrx.1, hrx.2, rfl⟩
    · exact .inr (.inl ⟨htx.1, htx.2, rfl⟩)
    · exact .inr (.inr ⟨hcontrol.1, hcontrol.2, rfl⟩)
  · rintro (⟨rfl, rfl, rfl⟩ | ⟨rfl, rfl, rfl⟩ | ⟨rfl, rfl, rfl⟩) <;> rfl

/-- The bytes the wire decoder accepts are those of a frame with one of the named pairs. -/
theorem decodeWire_eq_ok {bs : List Byte} {i : Instr} :
    decodeWire bs = .ok i ↔
      ∃ m t sub p c, p.length ≤ 255 ∧ bs = wireBytes m t sub p c ∧
        namedFrame m t sub p c = .ok i := by
  constructor
  · intro h
    rcases bs with _ | ⟨m, _ | ⟨t, _ | ⟨sub, _ | ⟨n, body⟩⟩⟩⟩
    iterate 4 cases h
    rw [decodeWire] at h
    split_ifs at h with hlen
    have hn : n.toNat < 256 := n.isLt
    have htake : (body.take n.toNat).length = n.toNat := by
      rw [List.length_take]
      omega
    refine ⟨m, t, sub, body.take n.toNat, body.getD n.toNat 0#8, by omega, ?_, h⟩
    have hlast : body.drop n.toNat = [body.getD n.toNat 0#8] := by
      rw [List.drop_eq_getElem_cons (by omega), List.getD_eq_getElem body 0#8 (by omega),
        List.drop_of_length_le (by omega)]
    have hbody : body = body.take n.toNat ++ [body.getD n.toNat 0#8] := by
      rw [← hlast, List.take_append_drop]
    rw [wireBytes, htake, BitVec.ofNat_toNat, BitVec.setWidth_eq, List.append_assoc, ← hbody]
    rfl
  · rintro ⟨m, t, sub, p, c, hp, rfl, h⟩
    have hn : (BitVec.ofNat 8 p.length).toNat = p.length := by
      rw [BitVec.toNat_ofNat]
      omega
    change decodeWire (m :: t :: sub :: BitVec.ofNat 8 p.length :: (p ++ [c])) = _
    rw [decodeWire, hn, if_pos (by simp)]
    simpa using h

/-! ### The statements -/

/-- Settles O1: every reader of operands takes what the encoder writes for it. -/
theorem decodeOfEncodeIsIdentity : Obligations.DecodeOfEncodeIsIdentity := by
  intro i hi
  cases i with
  | encode m t sub p => exact decodeEncode_eq_ok.2 ⟨m, t, sub, p, rfl, rfl⟩
  | scan b => exact decodeSeqOp_eq_ok.2 ⟨b, rfl, rfl⟩
  | append c => exact decodeSeqOp_eq_ok.2 ⟨c, rfl, rfl⟩
  | extract | clear => rfl
  | reserved5 _ | reserved6 _ | reserved7 _ => rfl
  | frameRxGetAll sub p c | frameTxGetAll sub p c | frameTxControl sub p c =>
    exact decodeWire_eq_ok.2 ⟨_, _, sub, p, c, of_decide_eq_true hi, rfl, rfl⟩

/-- Settles O2: the readers take nothing but what the encoder writes; of the op word only `op[2:0]` is
written again. -/
theorem encodeOfDecodeIsIdentity : Obligations.EncodeOfDecodeIsIdentity := by
  intro p i h
  match p with
  | .command [] => cases h
  | .command (w :: ws) =>
    obtain ⟨hwf, henc⟩ := encode_of_decodeCommand h
    refine ⟨hwf, fun hop => ?_⟩
    rw [henc, opSelect, Nat.mod_eq_of_lt (hop w ws rfl)]
  | .wire bs =>
    obtain ⟨m, t, sub, p, c, hp, rfl, hname⟩ := decodeWire_eq_ok.1 h
    rcases namedFrame_eq_ok.1 hname with
      ⟨rfl, rfl, rfl⟩ | ⟨rfl, rfl, rfl⟩ | ⟨rfl, rfl, rfl⟩ <;>
      exact ⟨decide_eq_true hp, fun _ => rfl⟩

/-- Settles O3: each of the eight presentations is run through the decoder. -/
theorem decodesWordsOfTheSpec : Obligations.DecodesWordsOfTheSpec :=
  ⟨rfl, rfl, rfl, rfl, rfl, rfl, rfl, rfl⟩

/-- Settles O4: the op select alone decides, before any operand is read (R211). -/
theorem reservedOpsDecodeWithAnyOperands : Obligations.ReservedOpsDecodeWithAnyOperands := by
  intro w ws
  refine ⟨?_, ?_, ?_⟩ <;> intro hop <;> simp only [decode, decodeCommand, opSelect, hop]

end Sys2Proof
end

section
/-! What every step keeps (spec R21, R25, R48, R52, R123 (f)): facts about a chain of primitive moves,
each proved once over the moves. -/

namespace Sys2Proof.Machine

/-! ### What a chain of moves keeps -/

theorem Move.cfg_eq {s t : State} (h : Move s t) : t.cfg = s.cfg := by
  induction h with
  | trans _ _ ih ih' => exact ih'.trans ih
  | _ => rfl

theorem Move.rxLen_le_maxOcc {s t : State} (h : Move s t) (hs : s.rxLen ≤ s.cfg.maxOcc) :
    t.rxLen ≤ t.cfg.maxOcc := by
  induction h with
  | trans _ _ ih ih' => exact ih' (ih hs)
  | compacted s k _ => exact (Nat.sub_le s.rxLen k).trans hs
  | appended _ _ hfit => exact hfit
  | emptyBuffer _ => exact Nat.zero_le _
  | _ => exact hs

/-- A cell of a compacted buffer stands below the occupied length, or was there before. -/
theorem State.compacted_cells {s : State} {k : Nat} (hs : s.BlockInv) :
    ∀ c ∈ (s.compacted k).rxBuf, c.1 < s.cfg.maxOcc := by
  obtain ⟨_, _, hcells, hlen⟩ := hs
  intro c hc
  rcases Mem.key_of_mem_writeSpan hc with ⟨_, hlt⟩ | hold
  · rw [Mem.readSpan_length] at hlt
    omega
  · exact hcells c hold

/-- A cell of the buffer after a fitting APPEND is one of the chunk's, or was there before. -/
theorem State.appended_cells {s : State} {chunk : List Byte} (hs : s.BlockInv)
    (hfit : s.rxLen + chunk.length ≤ s.cfg.maxOcc) :
    ∀ c ∈ (s.appended chunk).rxBuf, c.1 < s.cfg.maxOcc := by
  obtain ⟨_, _, hcells, _⟩ := hs
  intro c hc
  rcases Mem.key_of_mem_writeSpan hc with ⟨_, hlt⟩ | hold
  · omega
  · exact hcells c hold

theorem Move.blockInv {s t : State} (h : Move s t) (hs : s.BlockInv) : t.BlockInv := by
  induction h with
  | trans _ _ ih ih' => exact ih' (ih hs)
  | compacted s k _ =>
    obtain ⟨hcfg, hwf, _, hlen⟩ := id hs
    exact ⟨hcfg, State.compacted_wf hwf k, State.compacted_cells hs,
      (Nat.sub_le s.rxLen k).trans hlen⟩
  | appended s chunk hfit =>
    obtain ⟨hcfg, hwf, _, _⟩ := id hs
    exact ⟨hcfg, State.appended_wf hwf chunk, State.appended_cells hs hfit, hfit⟩
  | emptyBuffer s =>
    obtain ⟨hcfg, hwf, hcells, _⟩ := hs
    exact ⟨hcfg, hwf, hcells, Nat.zero_le _⟩
  | _ => exact hs

/-- Results, events and transmitted bytes of the second state are those of the first with something
added behind. -/
def State.Grows (s t : State) : Prop :=
  (∃ rs, t.results = s.results ++ rs) ∧ (∃ es, t.events = s.events ++ es) ∧
  (∃ bs, t.outgoing = s.outgoing ++ bs)

theorem State.Grows.of_eq {s t : State} (hr : t.results = s.results) (he : t.events = s.events)
    (ho : t.outgoing = s.outgoing) : s.Grows t :=
  ⟨⟨[], by rw [hr, List.append_nil]⟩, ⟨[], by rw [he, List.append_nil]⟩,
    ⟨[], by rw [ho, List.append_nil]⟩⟩

theorem State.Grows.trans {s t u : State} (h : s.Grows t) (h' : t.Grows u) : s.Grows u := by
  obtain ⟨⟨rs, hr⟩, ⟨es, he⟩, ⟨bs, ho⟩⟩ := h
  obtain ⟨⟨rs', hr'⟩, ⟨es', he'⟩, ⟨bs', ho'⟩⟩ := h'
  exact ⟨⟨rs ++ rs', by rw [hr', hr, List.append_assoc]⟩,
    ⟨es ++ es', by rw [he', he, List.append_assoc]⟩,
    ⟨bs ++ bs', by rw [ho', ho, List.append_assoc]⟩⟩

theorem Move.grows {s t : State} (h : Move s t) : s.Grows t := by
  induction h with
  | trans _ _ ih ih' => exact ih.trans ih'
  | record s r => exact ⟨⟨[r], rfl⟩, ⟨[], by simp⟩, ⟨[], by simp⟩⟩
  | transmit s bs => exact ⟨⟨[], by simp⟩, ⟨[], by simp⟩, ⟨bs, rfl⟩⟩
  | emit s e => exact ⟨⟨[], by simp⟩, ⟨[e], rfl⟩, ⟨[], by simp⟩⟩
  | _ => exact .of_eq rfl rfl rfl

/-- Every write stays below MAX_OCC, so the last index of the array keeps its byte (R123 (f)). -/
theorem Move.byteAt_sentinel {s t : State} (h : Move s t) (hs : s.rxLen ≤ s.cfg.maxOcc) :
    Mem.byteAt t.rxBuf s.cfg.maxOcc = Mem.byteAt s.rxBuf s.cfg.maxOcc := by
  induction h with
  | trans hst _ ih ih' =>
    have hfar := ih' (hst.rxLen_le_maxOcc hs)
    rw [hst.cfg_eq] at hfar
    exact hfar.trans (ih hs)
  | compacted s k _ => exact s.compacted_above ((Nat.sub_le s.rxLen k).trans hs)
  | appended s _ hfit => exact s.byteAt_appended_outside (.inr hfit)
  | _ => rfl

/-! ### The statements about all steps -/

/-- Settles O11: no primitive move writes the parameters. -/
theorem parametersNeverChange : Obligations.ParametersNeverChange :=
  fun _ _ h => (step_move h).cfg_eq

/-- Settles O12: every primitive move leaves the three records or adds behind them. -/
theorem recordsOnlyGrow : Obligations.RecordsOnlyGrow :=
  fun _ _ h => (step_move h).grows

/-- Settles O14: no primitive move writes at MAX_OCC, which is CAPACITY - 1. -/
theorem sentinelIndexIsNeverWritten : Obligations.SentinelIndexIsNeverWritten :=
  fun _ _ hs h => (step_move h).byteAt_sentinel hs

end Sys2Proof.Machine
end

section
/-! Frames of the instructions (spec R27, R40, R51, R75, R209, R210): a command touches the receive
buffer, its length and the results, one result each; a wire frame is its bytes passing on the link. -/

namespace Sys2Proof.Machine

/-! ### Commands -/

theorem State.SameOutside.record (s : State) (r : Result) : s.SameOutside (s.record r) :=
  ⟨rfl, rfl, rfl, rfl, rfl, rfl, rfl⟩

/-- A command changes nothing outside the receive state and records one result (R207, R210). -/
theorem exec_command_frame {i : Instr} {s t : State} (hi : ∃ ws, encode i = .command ws)
    (h : exec i s = .next t) : s.SameOutside t ∧ ∃ r, t.results = s.results ++ [r] := by
  obtain ⟨ws, hws⟩ := hi
  cases i with
  | encode m ty sub p =>
    rw [exec_encode] at h
    cases h
    exact ⟨.record s _, _, rfl⟩
  | append chunk =>
    obtain ⟨r, hr⟩ := exec_append_eq_next.1 h
    exact ⟨(State.appendOp_frame hr).1, r, (State.appendOp_frame hr).2⟩
  | extract =>
    obtain ⟨r, hr⟩ := exec_extract_eq_next.1 h
    exact ⟨(State.extractOp_frame hr).1, r, (State.extractOp_frame hr).2⟩
  | scan _ | clear | reserved5 _ | reserved6 _ | reserved7 _ =>
    cases h
    exact ⟨⟨rfl, rfl, rfl, rfl, rfl, rfl, rfl⟩, _, rfl⟩
  | frameRxGetAll _ _ _ | frameTxGetAll _ _ _ | frameTxControl _ _ _ => cases hws

/-- Only APPEND and EXTRACT write the buffer, and of the others only CLEAR its length (R51, R141). -/
theorem exec_rxBuf_rxLen {i : Instr} {s t : State} (hx : i ≠ .extract)
    (ha : ∀ chunk, i ≠ .append chunk) (h : exec i s = .next t) :
    t.rxBuf = s.rxBuf ∧ (i ≠ .clear → t.rxLen = s.rxLen) := by
  cases i with
  | encode m ty sub p =>
    rw [exec_encode] at h
    cases h
    exact ⟨rfl, fun _ => rfl⟩
  | append chunk => exact absurd rfl (ha chunk)
  | extract => exact absurd rfl hx
  | clear =>
    cases h
    exact ⟨rfl, fun hc => absurd rfl hc⟩
  | scan _ | reserved5 _ | reserved6 _ | reserved7 _ =>
    cases h
    exact ⟨rfl, fun _ => rfl⟩
  | frameRxGetAll _ _ _ | frameTxGetAll _ _ _ | frameTxControl _ _ _ =>
    cases h
    exact ⟨rfl, fun _ => rfl⟩

/-! ### Wire frames -/

theorem State.carry_outbound {s : State} {bs : List Byte} (h : bs.head? = some 0xF1#8) :
    s.carry bs = s.transmit bs := if_pos h

theorem State.carry_inbound {s : State} {bs : List Byte} (h : bs.head? ≠ some 0xF1#8) :
    s.carry bs = s.arrive bs := if_neg h

theorem State.carry_cases (s : State) (bs : List Byte) :
    s.carry bs = s.transmit bs ∨ s.carry bs = s.arrive bs := by
  by_cases h : bs.head? = some 0xF1#8
  · exact .inl (State.carry_outbound h)
  · exact .inr (State.carry_inbound h)

/-- A named frame does what its bytes would do unnamed: they pass on the link (R75). -/
theorem exec_of_encode_wire {i : Instr} {bs : List Byte} (s : State) (h : encode i = .wire bs) :
    exec i s = .next (s.carry bs) := by
  cases i with
  | frameRxGetAll _ _ _ | frameTxGetAll _ _ _ | frameTxControl _ _ _ => cases h; rfl
  | encode _ _ _ _ | scan _ | append _ | extract | clear => cases h
  | reserved5 _ | reserved6 _ | reserved7 _ => cases h

/-- An instruction is a command or a wire frame. -/
theorem encode_command_or_wire (i : Instr) :
    (∃ ws, encode i = .command ws) ∨ ∃ bs, encode i = .wire bs := by
  cases h : encode i with
  | command ws => exact .inl ⟨ws, rfl⟩
  | wire bs => exact .inr ⟨bs, rfl⟩

/-- The host stands as it did, and the consumer was told nothing. -/
structure State.SameSession (s t : State) : Prop where
  phase : t.phase = s.phase
  flag : t.pendingRequest = s.pendingRequest
  events : t.events = s.events

theorem State.carry_sameSession (s : State) (bs : List Byte) : s.SameSession (s.carry bs) := by
  rcases s.carry_cases bs with h | h <;> rw [h] <;> exact ⟨rfl, rfl, rfl⟩

theorem State.passBy_sameSession (s : State) (p : Presented) : s.SameSession (s.passBy p) := by
  cases p with
  | command _ => exact ⟨rfl, rfl, rfl⟩
  | wire bs => exact s.carry_sameSession bs

/-- No instruction touches the host or the consumer (R27, R210). -/
theorem exec_sameSession {i : Instr} {s t : State} (h : exec i s = .next t) :
    s.SameSession t := by
  rcases encode_command_or_wire i with hi | ⟨bs, hi⟩
  · obtain ⟨⟨_, hphase, hflag, _, _, hevents, _⟩, _⟩ := exec_command_frame hi h
    exact ⟨hphase, hflag, hevents⟩
  · rw [exec_of_encode_wire s hi] at h
    cases h
    exact s.carry_sameSession bs

/-! ### Every instruction answers -/

theorem State.extractOp_total {s : State} (h : s.rxLen ≤ s.cfg.capacity) :
    ∃ t r, s.extractOp = .ok (t, r) := by
  rcases State.extractOp_cases h with
    ⟨_, _, _, _, _, _, _, he⟩ | ⟨_, _, _, _, _, he⟩ | ⟨_, he⟩ | ⟨_, he⟩ <;> exact ⟨_, _, he⟩

theorem State.appendOp_total (s : State) (chunk : List Byte) :
    ∃ t r, s.appendOp chunk = .ok (t, r) := by
  rcases s.appendOp_cases chunk with ⟨_, he⟩ | ⟨_, he⟩ <;> exact ⟨_, _, he⟩

/-- With the length inside the array every instruction has a next state (R207, R256). -/
theorem exec_total (i : Instr) {s : State} (h : s.rxLen ≤ s.cfg.capacity) :
    ∃ t, exec i s = .next t := by
  cases i with
  | append chunk =>
    obtain ⟨t, r, ha⟩ := s.appendOp_total chunk
    exact ⟨t, exec_append_eq_next.2 ⟨r, ha⟩⟩
  | extract =>
    obtain ⟨t, r, hx⟩ := State.extractOp_total h
    exact ⟨t, exec_extract_eq_next.2 ⟨r, hx⟩⟩
  | encode _ _ _ _ | scan _ | clear | reserved5 _ | reserved6 _ | reserved7 _ => exact ⟨_, rfl⟩
  | frameRxGetAll _ _ _ | frameTxGetAll _ _ _ | frameTxControl _ _ _ => exact ⟨_, rfl⟩

/-! ### Steps that run an instruction -/

theorem step_of_decode {s : State} {p : Presented} {i : Instr} {rest : List Stimulus}
    (h : s.pending = .issue p :: rest) (hd : decode p = .ok i) :
    step s = exec i (s.setPending rest) := by
  simp only [step, h, hd]

theorem step_of_reject {s : State} {p : Presented} {r : Reject} {rest : List Stimulus}
    (h : s.pending = .issue p :: rest) (hd : decode p = .error r) :
    step s = .next ((s.setPending rest).passBy p) := by
  simp only [step, h, hd]

theorem step_of_nothing {s : State} (h : s.pending = []) : step s = .next s := by
  simp only [step, h]

/-- Named frame or not, the bytes presented on the link pass. -/
theorem step_of_wire {s : State} {bs : List Byte} {rest : List Stimulus}
    (h : s.pending = .issue (.wire bs) :: rest) :
    step s = .next ((s.setPending rest).carry bs) := by
  cases hd : decode (.wire bs) with
  | ok i =>
    have hi : encode i = .wire bs := (encodeOfDecodeIsIdentity _ i hd).2 (fun _ _ hc => nomatch hc)
    rw [step_of_decode h hd, exec_of_encode_wire _ hi]
  | error r => exact step_of_reject h hd

/-! ### The statements -/

/-- Settles O5: `step` is `decode` followed by `exec`, by passing, or by the host's event. -/
theorem stepRunsTheDecodedInstruction : Obligations.StepRunsTheDecodedInstruction :=
  fun _ _ => ⟨fun _ _ hp hd => step_of_decode hp hd, fun _ _ hp hd => step_of_reject hp hd,
    fun _ _ hp hd => step_of_reject hp hd, fun _ hp => step_of_host hp, step_of_nothing⟩

/-- Settles O15: all commands have one frame, and two lines of it are APPEND's, EXTRACT's and CLEAR's
alone. -/
theorem commandsLeaveTheRestAlone : Obligations.CommandsLeaveTheRestAlone :=
  fun _ _ _ hi h => ⟨(exec_command_frame hi h).1, fun hx ha => exec_rxBuf_rxLen hx ha h⟩

/-- Settles O16: a wire frame's bytes pass, which is an addition to one side of the transport. -/
theorem wireFramesLeaveTheBlockAlone : Obligations.WireFramesLeaveTheBlockAlone := by
  rintro i s t ⟨bs, hi⟩ h
  rw [exec_of_encode_wire s hi] at h
  cases h
  rcases s.carry_cases bs with hc | hc <;> rw [hc] <;>
    exact ⟨rfl, rfl, rfl, rfl, rfl, rfl, rfl, rfl⟩

/-- Settles O39: a reserved op is one recorded refusal. -/
theorem reservedOpsAreRefused : Obligations.ReservedOpsAreRefused :=
  fun _ _ => ⟨rfl, rfl, rfl⟩

/-- Settles O40: the row's meaning is the arrival of the bytes its encoding writes. -/
theorem inboundFrameReachesTheReadSide : Obligations.InboundFrameReachesTheReadSide :=
  fun _ _ _ _ => rfl

/-- Settles O41: the rows' meaning is the sending of the bytes their encodings write. -/
theorem outboundFramesReachTheWriteSide : Obligations.OutboundFramesReachTheWriteSide :=
  fun _ _ _ _ => ⟨rfl, rfl⟩

/-- Settles O57: on the link a named frame and any other bytes are carried alike. -/
theorem linkCarriesEveryByteSequence : Obligations.LinkCarriesEveryByteSequence := by
  intro s bs rest hp
  rw [step_of_wire hp]
  refine ⟨fun hout => ?_, fun hin => ?_⟩
  · rw [State.carry_outbound hout]
    rfl
  · rw [State.carry_inbound hin]
    rfl

end Sys2Proof.Machine
end

section
/-! The host contract (spec R150 to R166): one equation per event and phase, one lemma that says what a
host event can do, and the statements about the session that follow from it. -/

namespace Sys2Proof.Machine

/-! ### Sends -/

theorem State.sendFrame_fits (s : State) (t sub : Byte) {p : List Byte} (h : p.length ≤ 255) :
    s.sendFrame t sub p = (s.record (.encoded (buildFrame Config.txMarker t sub p))).transmit
      (buildFrame Config.txMarker t sub p) := by
  rw [State.sendFrame, State.encodeOp, encodeFrame, if_neg (Nat.not_lt.2 h)]

theorem State.sendFrame_too_long (s : State) (t sub : Byte) {p : List Byte}
    (h : 255 < p.length) :
    s.sendFrame t sub p = s.raise (.encodeLengthViolation p.length) := by
  rw [State.sendFrame, State.encodeOp, encodeFrame, if_pos h]

/-- A send, refused or not, touches neither the host nor the consumer (R160). -/
theorem State.sendFrame_sameSession (s : State) (t sub : Byte) (p : List Byte) :
    s.SameSession (s.sendFrame t sub p) := by
  rcases Nat.lt_or_ge 255 p.length with h | h
  · rw [s.sendFrame_too_long t sub h]
    exact ⟨rfl, rfl, rfl⟩
  · rw [s.sendFrame_fits t sub h]
    exact ⟨rfl, rfl, rfl⟩

/-- REQ_PAYLOAD's length is a byte (R13). -/
theorem reqPayload_length_le : Config.reqPayload.length ≤ 255 := by
  rw [Config.reqPayload, List.length_map, List.length_range]
  have := Config.reqPayloadLength.isLt
  omega

/-- The bytes of the all-status request (R154). -/
def requestFrame : List Byte :=
  buildFrame Config.txMarker Config.getAllType Config.allDataSub Config.reqPayload

theorem State.sendRequest_eq (s : State) : s.sendRequest Config.reqPayload =
    ((s.record (.encoded requestFrame)).transmit requestFrame).setHost .awaitingResponse true := by
  rw [State.sendRequest, s.sendFrame_fits _ _ reqPayload_length_le]
  rfl

/-- What a command-send event puts into its frame (R78, R160). -/
def HostEvent.sends : HostEvent → Option (Byte × Byte × List Byte)
  | .sendTyped t sub p => some (t, sub, p)
  | .sendFloat t sub v => some (t, sub, floatBytes v)
  | .sendByte t sub v => some (t, sub, [v])
  | _ => none

/-- While connected a command send is the sending of its frame, and nothing of the session. -/
theorem hostStep_sends {s : State} {e : HostEvent} {t sub : Byte} {p : List Byte}
    (hs : s.phase = .awaitingRequest ∨ s.phase = .awaitingResponse)
    (he : e.sends = some (t, sub, p)) : hostStep e s = .next (s.sendFrame t sub p) := by
  have htyped : hostSendTyped t sub p s = .next (s.sendFrame t sub p) := by
    rcases hs with hs | hs <;> simp only [hostSendTyped, hs]
  cases e with
  | sendTyped _ _ _ | sendFloat _ _ _ | sendByte _ _ _ => cases he; exact htyped
  | _ => cases he

/-! ### The parts of a poll -/

theorem State.readAppend_frame {s v : State} {n : Nat} {x : Result}
    (h : s.readAppend n = .ok (v, x)) :
    (s.dropIncoming (s.readSize n)).SameOutside v ∧ v.results = s.results ++ [x] :=
  State.appendOp_frame h

theorem State.readAppend_total (s : State) (n : Nat) : ∃ v x, s.readAppend n = .ok (v, x) :=
  State.appendOp_total _ _

theorem pollResponse_cases {c : TickChoice} {s u : State} (h : pollResponse c s = .next u) :
    ∃ v x, s.readAppend c.read = .ok (v, x) ∧ pollExtract c.report c.goOn v = .next u := by
  rw [pollResponse] at h
  rcases ha : s.readAppend c.read with f | ⟨v, x⟩ <;> rw [ha] at h
  · cases h
  · exact ⟨v, x, rfl, h⟩

/-- The poll's read and APPEND is APPEND of the bytes it takes from the transport (R155). -/
theorem hostStep_pollRead {n : Nat} {s : State} (hs : s.phase = .awaitingResponse) :
    hostStep (.pollRead n) s =
      exec (.append (s.incoming.take (s.readSize n))) (s.dropIncoming (s.readSize n)) := by
  simp only [hostStep, hostPollRead, hs]
  rfl

theorem hostStep_pollRead_eq_next {n : Nat} {s v : State} (hs : s.phase = .awaitingResponse) :
    hostStep (.pollRead n) s = .next v ↔ ∃ x, s.readAppend n = .ok (v, x) := by
  rw [hostStep_pollRead hs, exec_append_eq_next, State.readAppend]

theorem hostStep_pollExtract {report : Bool} {s : State} (hs : s.phase = .awaitingResponse) :
    hostStep (.pollExtract report) s = pollExtract report [] s := by
  simp only [hostStep, hostPollExtract, hs]

theorem hostStep_tick_awaitingResponse {c : TickChoice} {s : State}
    (hs : s.phase = .awaitingResponse) : hostStep (.tick c) s = pollResponse c s := by
  simp only [hostStep, hostTick, hs]

/-! ### What a host event can do -/

/-- The effects of the host's events, each with the phase it needs. A poll is a read and APPEND, or
EXTRACTs, or the one followed by the others (R155, R160). -/
inductive HostEffect (s : State) : HostEvent → State → Prop
  | nothing (e : HostEvent) : HostEffect s e s
  | opened (h : s.phase = .idle ∨ s.phase = .faulted) :
      HostEffect s .connect (s.clearOp.setHost .awaitingRequest false)
  | requested (e : HostEvent) (h : s.phase = .awaitingRequest) :
      HostEffect s e (s.sendRequest Config.reqPayload)
  | polled (e : HostEvent) {v u : State} (h : s.phase = .awaitingResponse)
      (hread : v = s ∨ ∃ n x, s.readAppend n = .ok (v, x))
      (hextract : u = v ∨ ∃ report goOn, pollExtract report goOn v = .next u) : HostEffect s e u
  | failed (r : IoReason) (h : s.phase ≠ .faulted) :
      HostEffect s (.ioError r) ((s.clearOp.setHost .faulted false).emit (.connectionLost r))
  | failedAgain (r : IoReason) (h : s.phase = .faulted) :
      HostEffect s (.ioError r) (s.clearOp.setHost .faulted false)
  | sent {e : HostEvent} {t sub : Byte} {p : List Byte} (h : e.sends = some (t, sub, p)) :
      HostEffect s e (s.sendFrame t sub p)
  | closed : HostEffect s .close (s.clearOp.setHost .idle false)
  | received (bs : List Byte) : HostEffect s (.received bs) (s.arrive bs)
  | lost (n : Nat) : HostEffect s (.lost n) (s.dropIncoming n)

theorem hostSendTyped_effect {e : HostEvent} {t sub : Byte} {p : List Byte} {s u : State}
    (he : e.sends = some (t, sub, p)) (h : hostSendTyped t sub p s = .next u) :
    HostEffect s e u := by
  rw [hostSendTyped] at h
  split at h <;> cases h <;> exact .sent he

theorem hostStep_effect {e : HostEvent} {s u : State} (h : hostStep e s = .next u) :
    HostEffect s e u := by
  cases e with
  | connect =>
    simp only [hostStep, hostConnect] at h
    split at h <;> cases h
    · next hs => exact .opened (.inl hs)
    · next hs => exact .opened (.inr hs)
  | tick c =>
    cases hs : s.phase with
    | idle | faulted => simp only [hostStep, hostTick, hs] at h; cases h; exact .nothing _
    | awaitingRequest => simp only [hostStep, hostTick, hs] at h; cases h; exact .requested _ hs
    | awaitingResponse =>
      rw [hostStep_tick_awaitingResponse hs] at h
      obtain ⟨v, x, hread, hextract⟩ := pollResponse_cases h
      exact .polled _ hs (.inr ⟨_, x, hread⟩) (.inr ⟨_, _, hextract⟩)
  | ioError r =>
    cases hs : s.phase with
    | faulted => simp only [hostStep, hostIoError, hs] at h; cases h; exact .failedAgain r hs
    | idle | awaitingRequest | awaitingResponse =>
      simp only [hostStep, hostIoError, hs] at h
      cases h
      exact .failed r (by rw [hs]; nofun)
  | pollRead n =>
    cases hs : s.phase with
    | idle | faulted | awaitingRequest =>
      simp only [hostStep, hostPollRead, hs] at h; cases h; exact .nothing _
    | awaitingResponse =>
      obtain ⟨x, hread⟩ := (hostStep_pollRead_eq_next hs).1 h
      exact .polled _ hs (.inr ⟨n, x, hread⟩) (.inl rfl)
  | pollExtract report =>
    cases hs : s.phase with
    | idle | faulted | awaitingRequest =>
      simp only [hostStep, hostPollExtract, hs] at h; cases h; exact .nothing _
    | awaitingResponse =>
      rw [hostStep_pollExtract hs] at h
      exact .polled _ hs (.inl rfl) (.inr ⟨report, [], h⟩)
  | sendTyped _ _ _ | sendFloat _ _ _ | sendByte _ _ _ => exact hostSendTyped_effect rfl h
  | sendStatusRequest =>
    simp only [hostStep, hostSendStatusRequest] at h
    split at h <;> cases h
    · next hs => exact .requested _ hs
    · exact .nothing _
  | close =>
    simp only [hostStep, hostClose] at h
    split at h <;> cases h <;> exact .closed
  | received bs => cases h; exact .received bs
  | lost n => cases h; exact .lost n

/-- A poll sends nothing; its host stands as it did, or a last Frame was delivered. -/
theorem poll_frame {s v u : State} (hread : v = s ∨ ∃ n x, s.readAppend n = .ok (v, x))
    (hextract : u = v ∨ ∃ report goOn, pollExtract report goOn v = .next u) :
    u.outgoing = s.outgoing ∧
    ((u.phase = s.phase ∧ u.pendingRequest = s.pendingRequest) ∨
     (u.phase = .awaitingRequest ∧ u.pendingRequest = false ∧
      ∃ rs t sub p c, u.results = s.results ++ rs ++ [.frame t sub p c])) := by
  have hv : v.outgoing = s.outgoing ∧ v.phase = s.phase ∧ v.pendingRequest = s.pendingRequest ∧
      ∃ xs, v.results = s.results ++ xs := by
    rcases hread with rfl | ⟨n, x, hread⟩
    · exact ⟨rfl, rfl, rfl, [], by simp⟩
    · obtain ⟨⟨_, hphase, hflag, _, hout, _, _⟩, hres⟩ := State.readAppend_frame hread
      exact ⟨hout, hphase, hflag, [x], hres⟩
  obtain ⟨hout, hphase, hflag, xs, hres⟩ := hv
  rcases hextract with rfl | ⟨report, goOn, hextract⟩
  · exact ⟨hout, .inl ⟨hphase, hflag⟩⟩
  obtain ⟨r, rs, hout', _, hres', hcases⟩ := pollExtract_polled hextract
  refine ⟨hout'.trans hout, ?_⟩
  rcases hcases with ⟨_, _, hphase', hflag', _⟩ | ⟨rs', t, sub, p, c, _, hrs, _, hphase', hflag', _⟩
  · exact .inl ⟨hphase'.trans hphase, hflag'.trans hflag⟩
  · refine .inr ⟨hphase', hflag', xs ++ rs', t, sub, p, c, ?_⟩
    rw [hres', hrs, hres]
    simp only [List.append_assoc]

/-! ### The session invariant -/

theorem State.HostInv.of_eq {s t : State} (hs : s.HostInv) (hphase : t.phase = s.phase)
    (hflag : t.pendingRequest = s.pendingRequest) : t.HostInv := by
  rw [State.HostInv, hphase, hflag]
  exact hs

/-- With the flag false, any phase but AwaitingResponse meets the invariant. -/
theorem State.HostInv.of_not_pending {t : State} (hflag : t.pendingRequest = false)
    (hphase : t.phase ≠ .awaitingResponse) : t.HostInv := by
  simp only [State.HostInv, hflag, hphase, Bool.false_eq_true]

theorem HostEffect.hostInv {e : HostEvent} {s u : State} (h : HostEffect s e u)
    (hs : s.HostInv) : u.HostInv := by
  cases h with
  | nothing => exact hs
  | opened | failed | failedAgain | closed => exact .of_not_pending rfl nofun
  | requested => exact iff_of_true rfl rfl
  | polled _ _ hread hextract =>
    obtain ⟨_, ⟨hphase, hflag⟩ | ⟨hphase, hflag, _⟩⟩ := poll_frame hread hextract
    · exact hs.of_eq hphase hflag
    · exact .of_not_pending hflag (by rw [hphase]; nofun)
  | sent =>
    exact hs.of_eq (s.sendFrame_sameSession _ _ _).phase (s.sendFrame_sameSession _ _ _).flag
  | received | lost => exact hs

theorem step_hostInv {s t : State} (hs : s.HostInv) (h : step s = .next t) : t.HostInv := by
  rcases step_cases h with ⟨_, rfl⟩ | ⟨p, _, rest, _, _, rfl⟩ | ⟨_, _, rest, _, _, hexec⟩ |
    ⟨e, rest, _, hhost⟩
  · exact hs
  · have hsame := (s.setPending rest).passBy_sameSession p
    exact hs.of_eq hsame.phase hsame.flag
  · have hsame := exec_sameSession hexec
    exact hs.of_eq hsame.phase hsame.flag
  · exact (hostStep_effect hhost).hostInv (s := s.setPending rest) hs

/-- Settles O9: the block's part is kept by every primitive move, the session's part by every effect of
a host event, and nothing else touches the session. -/
theorem stepKeepsInvariant : Obligations.StepKeepsInvariant :=
  fun _ _ ⟨hblock, hhost⟩ h => ⟨(step_move h).blockInv hblock, step_hostInv hhost h⟩

/-! ### No step faults -/

theorem afterExtract_total {s : State} {report : Bool}
    {next : State → Host.Outcome State Fault Refusal} (hs : s.rxLen ≤ s.cfg.maxOcc)
    (hn : ∀ t : State, t.rxLen ≤ t.cfg.maxOcc → ∃ u, next t = .next u) :
    ∃ u, afterExtract s.extractOp report next = .next u := by
  rcases State.extractOp_cases (hs.trans (maxOcc_le s.cfg)) with
    ⟨_, _, _, _, _, _, _, he⟩ | ⟨i, e, a, _, _, he⟩ | ⟨_, he⟩ | ⟨_, he⟩
  · exact ⟨_, by rw [he]; rfl⟩
  · have hmove := (State.extractOp_move he).trans (State.surface_move _ report e a)
    obtain ⟨u, hu⟩ := hn _ (hmove.rxLen_le_maxOcc hs)
    exact ⟨u, by rw [he]; exact hu⟩
  · exact ⟨_, by rw [he]; rfl⟩
  · exact ⟨_, by rw [he]; rfl⟩

theorem pollExtract_total {report : Bool} {goOn : List Bool} {s : State}
    (hs : s.rxLen ≤ s.cfg.maxOcc) : ∃ u, pollExtract report goOn s = .next u := by
  induction goOn generalizing report s with
  | nil => exact afterExtract_total hs fun t _ => ⟨t, rfl⟩
  | cons again more ih => exact afterExtract_total hs fun t ht => ih ht

theorem pollResponse_total {c : TickChoice} {s : State} (hs : s.rxLen ≤ s.cfg.maxOcc) :
    ∃ u, pollResponse c s = .next u := by
  obtain ⟨v, x, hread⟩ := s.readAppend_total c.read
  rw [pollResponse, hread]
  exact pollExtract_total ((State.readAppend_move hread).rxLen_le_maxOcc hs)

theorem hostSendTyped_ne_fault (t sub : Byte) (p : List Byte) (s : State) (f : Fault) :
    hostSendTyped t sub p s ≠ .fault f := by
  rw [hostSendTyped]
  split <;> nofun

theorem hostStep_ne_fault (e : HostEvent) {s : State} (f : Fault) (hs : s.rxLen ≤ s.cfg.maxOcc) :
    hostStep e s ≠ .fault f := by
  cases e with
  | tick c =>
    simp only [hostStep, hostTick]
    split
    iterate 3 nofun
    obtain ⟨u, hu⟩ := pollResponse_total (c := c) hs
    rw [hu]
    nofun
  | pollRead n =>
    simp only [hostStep, hostPollRead]
    split
    iterate 3 nofun
    obtain ⟨v, x, hread⟩ := s.readAppend_total n
    rw [hread]
    nofun
  | pollExtract report =>
    simp only [hostStep, hostPollExtract]
    split
    iterate 3 nofun
    obtain ⟨u, hu⟩ := pollExtract_total (report := report) (goOn := []) hs
    rw [hu]
    nofun
  | sendTyped _ _ _ | sendFloat _ _ _ | sendByte _ _ _ => exact hostSendTyped_ne_fault _ _ _ s f
  | connect => simp only [hostStep, hostConnect]; split <;> nofun
  | ioError _ => simp only [hostStep, hostIoError]; split <;> nofun
  | sendStatusRequest => simp only [hostStep, hostSendStatusRequest]; split <;> nofun
  | close => simp only [hostStep, hostClose]; split <;> nofun
  | received _ | lost _ => nofun

/-- What is presented at either interface is executed or passes by. -/
theorem step_issue_total {s : State} {p : Presented} {rest : List Stimulus}
    (hs : s.rxLen ≤ s.cfg.maxOcc) (h : s.pending = .issue p :: rest) : ∃ t, step s = .next t := by
  cases hd : decode p with
  | ok i =>
    rw [step_of_decode h hd]
    exact exec_total i (s := s.setPending rest) (hs.trans (maxOcc_le s.cfg))
  | error r => exact ⟨_, step_of_reject h hd⟩

/-- Settles O10: APPEND and EXTRACT, alone or in a poll, access the array only below the length. -/
theorem blockIsNeverStuck : Obligations.BlockIsNeverStuck := by
  refine ⟨fun s i hs => ?total, fun s f hs => ?noFault, fun s p rest hs h => step_issue_total hs h⟩
  case total =>
    obtain ⟨t, ht⟩ := exec_total i (hs.trans (maxOcc_le s.cfg))
    exact ⟨t, ht, fun hi => (exec_command_frame hi ht).2⟩
  case noFault =>
    rcases hp : s.pending with _ | ⟨p | e, rest⟩
    · rw [step_of_nothing hp]
      nofun
    · obtain ⟨t, ht⟩ := step_issue_total hs hp
      rw [ht]
      nofun
    · rw [step_of_host hp]
      exact hostStep_ne_fault e (s := s.setPending rest) f hs

end Sys2Proof.Machine
end

section
/-! The statements about the host (spec R150 to R166, R210): each event's equation, the flag, the poll
in block operations, and where the consumer's events come from. -/

namespace Sys2Proof.Machine

/-! ### Opening, failing, closing -/

/-- Settles O43: both phases have the same arm. -/
theorem connectOpensACleanSession : Obligations.ConnectOpensACleanSession := by
  intro s hs
  rcases hs with hs | hs <;> simp only [hostStep, hostConnect, hs] <;> rfl

/-- Settles O48: three phases share an arm, the fourth has no notification. -/
theorem ioErrorFaultsTheSession : Obligations.IoErrorFaultsTheSession := by
  intro s r
  constructor
  · intro hs
    cases hp : s.phase with
    | faulted => exact absurd hp hs
    | idle | awaitingRequest | awaitingResponse => simp only [hostStep, hostIoError, hp]; rfl
  · intro hs
    simp only [hostStep, hostIoError, hs]
    rfl

/-- Settles O50: both connected phases have the same arm. -/
theorem closeEndsTheSession : Obligations.CloseEndsTheSession := by
  intro s hs
  rcases hs with hs | hs <;> simp only [hostStep, hostClose, hs] <;> rfl

/-- Settles O59: the step runs the event, which adds to the read side or drops from its front. -/
theorem transportInputsTouchOnlyTheReadSide : Obligations.TransportInputsTouchOnlyTheReadSide :=
  fun _ _ => ⟨fun _ hp => step_of_host hp, fun _ hp => step_of_host hp⟩

/-! ### Sends -/

/-- A frame's bytes with the checksum written out as R65 says. -/
theorem buildFrame_eq (m t sub : Byte) (p : List Byte) :
    buildFrame m t sub p = [m, t, sub, BitVec.ofNat 8 p.length] ++ p ++
      [BitVec.ofNat 8 ((sub.toNat + p.length + byteSum p) % 256)] := by
  rw [buildFrame, checksum_ofNat_length]

theorem requestFrame_eq : requestFrame =
    [0xF1#8, 0xA1#8, 0xFF#8, BitVec.ofNat 8 Config.reqPayload.length] ++ Config.reqPayload ++
      [BitVec.ofNat 8 ((255 + Config.reqPayload.length + byteSum Config.reqPayload) % 256)] :=
  buildFrame_eq _ _ _ _

/-- Settles O44: the tick and the consumer's command are the same request. -/
theorem tickSendsTheRequest : Obligations.TickSendsTheRequest := by
  intro s choice hs
  refine ⟨reqPayload_length_le, requestFrame, requestFrame_eq, ?_, ?_⟩
  · simp only [hostStep, hostTick, hs, State.sendRequest_eq]
    rfl
  · simp only [hostStep, hostSendStatusRequest, hs, State.sendRequest_eq]
    rfl

/-- A float's bits are its four bytes, least significant first (R181). -/
theorem floatAt_floatBytes (v : FloatBits) : FloatAt (floatBytes v) 0 v := by
  have hv : v.toNat < 2 ^ 32 := v.isLt
  simp only [FloatAt, floatBytes, List.getD_cons_zero, List.getD_cons_succ,
    BitVec.extractLsb'_toNat, Nat.shiftRight_eq_div_pow]
  omega

/-- Settles O52: a float and a byte are sent as their bytes by the one send, which ENCODE's length test
alone can refuse. -/
theorem commandSendIsFireAndForget : Obligations.CommandSendIsFireAndForget := by
  intro s t sub hs
  have hfits {e : HostEvent} {p : List Byte} (he : e.sends = some (t, sub, p))
      (hp : p.length ≤ 255) : hostStep e s =
      .next ((s.record (.encoded (buildFrame Config.txMarker t sub p))).transmit
        (buildFrame Config.txMarker t sub p)) := by
    rw [hostStep_sends hs he, s.sendFrame_fits t sub hp]
  refine ⟨fun p hp => ?typed, fun p hp => ?tooLong, fun v => ?float, fun b => ?byte⟩
  case typed => exact ⟨_, buildFrame_eq _ t sub p, hfits rfl hp⟩
  case tooLong =>
    rw [hostStep_sends hs rfl, s.sendFrame_too_long t sub hp]
    rfl
  case float =>
    exact ⟨_, _, _, _, _, floatAt_floatBytes v, buildFrame_eq Config.txMarker t sub (floatBytes v),
      hfits rfl (by simp [floatBytes])⟩
  case byte =>
    refine ⟨_, ?_, hfits rfl (p := [b]) (by simp)⟩
    rw [buildFrame_eq, byteSum_cons, byteSum_nil]
    rfl

/-! ### The flag -/

/-- Settles O46: with the flag set the host is in AwaitingResponse, where it polls or does nothing. -/
theorem noSecondRequestWhilePending : Obligations.NoSecondRequestWhilePending := by
  intro s u e hinv hflag he h
  have hs : s.phase = .awaitingResponse := hinv.1 hflag
  cases hostStep_effect h with
  | nothing => rfl
  | requested _ hreq => exact nomatch hs.symm.trans hreq
  | polled _ _ hread hextract => exact (poll_frame hread hextract).1
  | received | lost => rfl
  | opened | failed | failedAgain | closed => rfl
  | sent hsends => rcases he with ⟨_, rfl⟩ | ⟨_, rfl⟩ | ⟨_, rfl⟩ | rfl <;> cases hsends

/-- What the effect of a host event does to the flag (R152). -/
theorem HostEffect.flag {e : HostEvent} {s u : State} (h : HostEffect s e u) (hinv : s.HostInv) :
    u.pendingRequest = s.pendingRequest ∨
    (u.pendingRequest = true ∧ u.results = s.results ++ [.encoded requestFrame] ∧
      u.outgoing = s.outgoing ++ requestFrame) ∨
    (u.pendingRequest = false ∧
      ((∃ rs t sub p c, u.results = s.results ++ rs ++ [.frame t sub p c]) ∨
        (∃ r, e = .ioError r) ∨ e = .close)) := by
  cases h with
  | nothing | received | lost => exact .inl rfl
  | opened hs =>
    have hnot : s.pendingRequest ≠ true := fun hflag => by
      rcases hs with hs | hs <;> exact nomatch hs.symm.trans (hinv.1 hflag)
    exact .inl (Bool.eq_false_iff.2 hnot).symm
  | requested => rw [State.sendRequest_eq]; exact .inr (.inl ⟨rfl, rfl, rfl⟩)
  | polled _ _ hread hextract =>
    obtain ⟨_, ⟨_, hflag⟩ | ⟨_, hflag, hframe⟩⟩ := poll_frame hread hextract
    · exact .inl hflag
    · exact .inr (.inr ⟨hflag, .inl hframe⟩)
  | failed r | failedAgain r => exact .inr (.inr ⟨rfl, .inr (.inl ⟨r, rfl⟩)⟩)
  | sent => exact .inl (s.sendFrame_sameSession _ _ _).flag
  | closed => exact .inr (.inr ⟨rfl, .inr (.inr rfl)⟩)

/-- A step that changes the flag runs a host event. -/
theorem step_flag_cases {s u : State} (h : step s = .next u) :
    u.pendingRequest = s.pendingRequest ∨
    ∃ e rest, s.pending = .host e :: rest ∧ HostEffect (s.setPending rest) e u := by
  rcases step_cases h with ⟨_, rfl⟩ | ⟨p, _, rest, _, _, rfl⟩ | ⟨_, _, _, _, _, hexec⟩ |
    ⟨e, rest, hp, hhost⟩
  · exact .inl rfl
  · exact .inl ((s.setPending rest).passBy_sameSession p).flag
  · exact .inl (exec_sameSession hexec).flag
  · exact .inr ⟨e, rest, hp, hostStep_effect hhost⟩

/-- Settles O47: of the effects of a host event, the request sets the flag, and a delivered Frame, a
hard error and a close clear it. -/
theorem flagChangesOnlyAsTheRuleSays : Obligations.FlagChangesOnlyAsTheRuleSays := by
  intro s u hinv h
  by_cases hsame : u.pendingRequest = s.pendingRequest
  · rw [hsame]
    exact ⟨fun hf ht => (nomatch hf.symm.trans ht), fun ht hf => (nomatch hf.symm.trans ht)⟩
  rcases step_flag_cases h with heq | ⟨e, rest, hp, heffect⟩
  · exact absurd heq hsame
  rcases heffect.flag (s := s.setPending rest) hinv with
    heq | ⟨hset, hres, hout⟩ | ⟨hcleared, hcause⟩
  · exact absurd heq hsame
  · exact ⟨fun _ _ => ⟨requestFrame, hres, hout, rfl⟩, fun _ hf => (nomatch hf.symm.trans hset)⟩
  · refine ⟨fun _ ht => (nomatch hcleared.symm.trans ht), fun _ _ => ?_⟩
    rcases hcause with hframe | ⟨r, rfl⟩ | rfl
    · exact .inl hframe
    · exact .inr (.inl ⟨r, rest, hp⟩)
    · exact .inr (.inr ⟨rest, hp⟩)

/-! ### The poll in block operations -/

/-- EXTRACT's recorded result is the one it answers. -/
theorem extractOp_of_exec {s w : State} {r : Result} (h : exec .extract s = .next w)
    (hr : w.results = s.results ++ [r]) : s.extractOp = .ok (w, r) := by
  obtain ⟨r', hx⟩ := exec_extract_eq_next.1 h
  have hsame : [r'] = [r] := List.append_cancel_left ((State.extractOp_frame hx).2.symm.trans hr)
  rw [hx, List.singleton_injective hsame]

theorem State.surface_eq (s : State) (report : Bool) (e a : Byte) : s.surface report e a =
    { s with events := s.events ++ if report then [.checksumError e a] else [] } := by
  cases report
  · simp [State.surface]
  · rfl

theorem hostStep_tick_of_pollRead {c : TickChoice} {s v : State} (hs : s.phase = .awaitingResponse)
    (hv : hostStep (.pollRead c.read) s = .next v) :
    hostStep (.tick c) s = pollExtract c.report c.goOn v := by
  obtain ⟨x, hread⟩ := (hostStep_pollRead_eq_next hs).1 hv
  rw [hostStep_tick_awaitingResponse hs, pollResponse, hread]

/-- A tick's further EXTRACTs follow a Corrupt and nothing else (R157). -/
theorem pollExtract_cons {report again : Bool} {more : List Bool} {v w : State} {r : Result}
    (h : pollExtract report [] v = .next w) (hr : w.results = v.results ++ [r]) :
    ((∃ e a, r = .raised (.corrupt e a)) →
      pollExtract report (again :: more) v = pollExtract again more w) ∧
    ((∀ e a, r ≠ .raised (.corrupt e a)) → pollExtract report (again :: more) v = .next w) := by
  have hlast {q : Result} (hq : w.results = v.results ++ [q]) : r = q :=
    List.singleton_injective (List.append_cancel_left (hr.symm.trans hq))
  rw [pollExtract]
  rcases afterExtract_cases h with ⟨t, _, sub, p, _, hx, rfl⟩ | ⟨t, e, a, hx, hw⟩ | hx | hx <;>
    rw [hx]
  · obtain rfl := hlast (State.extractOp_frame hx).2
    exact ⟨fun ⟨_, _, hc⟩ => (nomatch hc), fun _ => rfl⟩
  · cases hw
    rw [State.surface_eq] at hlast
    exact ⟨fun _ => rfl, fun hn => absurd (hlast (State.extractOp_frame hx).2) (hn e a)⟩
  · obtain rfl := hlast (State.extractOp_frame hx).2
    exact ⟨fun ⟨_, _, hc⟩ => (nomatch hc), fun _ => rfl⟩
  · obtain rfl := hlast (State.extractOp_frame hx).2
    exact ⟨fun ⟨_, _, hc⟩ => (nomatch hc), fun _ => rfl⟩

/-- Settles O58: the parts of a poll are APPEND and EXTRACT, and a tick is its parts in turn. -/
theorem pollIsAppendThenExtract : Obligations.PollIsAppendThenExtract := by
  intro s hs
  refine ⟨?read, ?extract, ?tick⟩
  case read =>
    rintro n m rfl
    exact hostStep_pollRead hs
  case extract =>
    intro report w r hexec hr
    have hpoll : hostStep (.pollExtract report) s = afterExtract (.ok (w, r)) report .next := by
      rw [hostStep_pollExtract hs, pollExtract, extractOp_of_exec hexec hr]
    rw [hpoll]
    refine ⟨?_, ?_, ?_⟩
    · rintro t sub p c rfl
      rfl
    · rintro e a rfl
      rw [← State.surface_eq]
      rfl
    · rintro (rfl | rfl) <;> rfl
  case tick =>
    intro n report v hv
    obtain ⟨x, hread⟩ := (hostStep_pollRead_eq_next hs).1 hv
    obtain ⟨⟨_, hphase, _⟩, _⟩ := State.readAppend_frame hread
    have hv' : v.phase = .awaitingResponse := hphase.trans hs
    have htick (goOn : List Bool) :
        hostStep (.tick { read := n, report := report, goOn := goOn }) s =
          pollExtract report goOn v := hostStep_tick_of_pollRead hs hv
    simp only [htick, hostStep_pollExtract hv', true_and]
    exact fun again more w r hw hr => pollExtract_cons hw hr

/-- APPEND's result is Ok or Overflow as the chunk fits or not (R120). -/
theorem State.appendOp_result {s t : State} {chunk : List Byte} {x : Result}
    (h : s.appendOp chunk = .ok (t, x)) :
    (s.rxLen + chunk.length ≤ s.cfg.maxOcc → x = .ok) ∧
    (s.cfg.maxOcc < s.rxLen + chunk.length → x = .raised .overflow) := by
  rcases s.appendOp_cases chunk with ⟨hfit, he⟩ | ⟨hover, he⟩ <;> rw [he] at h <;> cases h
  · exact ⟨fun _ => rfl, fun hover => absurd hfit (Nat.not_le.2 hover)⟩
  · exact ⟨fun hfit => absurd hfit (Nat.not_le.2 hover), fun _ => rfl⟩

/-- Settles O45: the read and APPEND has APPEND's two outcomes, and what its EXTRACTs do is
`State.Polled`. -/
theorem tickAwaitsTheResponse : Obligations.TickAwaitsTheResponse := by
  rintro s u choice n hs hflag rfl h
  rw [hostStep_tick_awaitingResponse hs] at h
  obtain ⟨v, x, hread, hextract⟩ := pollResponse_cases h
  obtain ⟨⟨_, hphase, hpending, hin, hout, hevents, _⟩, hres⟩ := State.readAppend_frame hread
  obtain ⟨r, rs, hout', hin', hres', hcases⟩ := pollExtract_polled hextract
  rw [hphase, hpending, hevents] at hcases
  obtain ⟨hfits, hover⟩ := State.appendOp_result hread
  refine ⟨hout'.trans hout, hin'.trans hin, x, r :: rs, by rw [hres', hres]; simp, nofun, hfits,
    hover, ?_⟩
  rcases hcases with ⟨es, hnone, hphase', hflag', hevents', hes⟩ | hframe
  · exact .inr ⟨es, hnone, hphase'.trans hs, hflag'.trans hflag, hevents', hes⟩
  · exact .inl hframe

/-! ### Where events come from -/

/-- The events added are the decoded payloads of Frames and the values of Corrupts among the results
added. -/
def State.EventsCaused (s u : State) : Prop :=
  ∃ rs es, u.results = s.results ++ rs ∧ u.events = s.events ++ es ∧
    (∀ d, Event.statusUpdated d ∈ es →
      ∃ t sub p c, Result.frame t sub p c ∈ rs ∧ d = decodeStatus sub p) ∧
    (∀ e a, Event.checksumError e a ∈ es → Result.raised (.corrupt e a) ∈ rs) ∧
    (∀ r, Event.connectionLost r ∉ es)

theorem Move.eventsCaused {s u : State} (h : Move s u) (he : u.events = s.events) :
    s.EventsCaused u := by
  obtain ⟨⟨rs, hr⟩, _⟩ := h.grows
  exact ⟨rs, [], hr, by rw [he, List.append_nil], nofun, nofun, nofun⟩

theorem State.EventsCaused.trans {s t u : State} (h : s.EventsCaused t) (h' : t.EventsCaused u) :
    s.EventsCaused u := by
  obtain ⟨rs, es, hr, he, hstatus, hcheck, hlost⟩ := h
  obtain ⟨rs', es', hr', he', hstatus', hcheck', hlost'⟩ := h'
  refine ⟨rs ++ rs', es ++ es', by rw [hr', hr, List.append_assoc],
    by rw [he', he, List.append_assoc], fun d hd => ?_, fun e a hd => ?_, fun r hd => ?_⟩
  · rcases List.mem_append.1 hd with hd | hd
    · obtain ⟨t, sub, p, c, hm, hdec⟩ := hstatus d hd
      exact ⟨t, sub, p, c, List.mem_append_left _ hm, hdec⟩
    · obtain ⟨t, sub, p, c, hm, hdec⟩ := hstatus' d hd
      exact ⟨t, sub, p, c, List.mem_append_right _ hm, hdec⟩
  · rcases List.mem_append.1 hd with hd | hd
    · exact List.mem_append_left _ (hcheck e a hd)
    · exact List.mem_append_right _ (hcheck' e a hd)
  · rcases List.mem_append.1 hd with hd | hd
    · exact hlost r hd
    · exact hlost' r hd

theorem State.deliver_eventsCaused {s t : State} {ty sub : Byte} {p : List Byte} {c : Nat}
    (h : s.extractOp = .ok (t, .frame ty sub p c)) : s.EventsCaused (t.deliver sub p) := by
  obtain ⟨⟨_, _, _, _, _, hevents, _⟩, hres⟩ := State.extractOp_frame h
  refine ⟨_, [.statusUpdated (decodeStatus sub p)], hres, by rw [← hevents]; rfl, fun d hd => ?_,
    by simp, by simp⟩
  cases List.mem_singleton.1 hd
  exact ⟨ty, sub, p, c, List.mem_singleton_self _, rfl⟩

theorem State.surface_eventsCaused {s t : State} {report : Bool} {e a : Byte}
    (h : s.extractOp = .ok (t, .raised (.corrupt e a))) :
    s.EventsCaused (t.surface report e a) := by
  obtain ⟨⟨_, _, _, _, _, hevents, _⟩, hres⟩ := State.extractOp_frame h
  rw [State.surface_eq]
  cases report
  · exact ⟨_, [], hres, by rw [← hevents]; rfl, nofun, nofun, nofun⟩
  · exact ⟨_, [.checksumError e a], hres, by rw [← hevents]; rfl, by simp, by simp, by simp⟩

theorem afterExtract_eventsCaused {s u : State} {report : Bool}
    {next : State → Host.Outcome State Fault Refusal}
    (hn : ∀ {t}, next t = .next u → t.EventsCaused u)
    (h : afterExtract s.extractOp report next = .next u) : s.EventsCaused u := by
  have hwaits {r : Result} (hx : s.extractOp = .ok (u, r)) : s.EventsCaused u := by
    obtain ⟨⟨_, _, _, _, _, hevents, _⟩, _⟩ := State.extractOp_frame hx
    exact (State.extractOp_move hx).eventsCaused hevents
  rcases afterExtract_cases h with ⟨_, _, _, _, _, hx, rfl⟩ | ⟨_, _, _, hx, hu⟩ | hx | hx
  · exact State.deliver_eventsCaused hx
  · exact (State.surface_eventsCaused hx).trans (hn hu)
  · exact hwaits hx
  · exact hwaits hx

theorem pollExtract_eventsCaused {goOn : List Bool} {report : Bool} {s u : State}
    (h : pollExtract report goOn s = .next u) : s.EventsCaused u := by
  induction goOn generalizing report s with
  | nil =>
    refine afterExtract_eventsCaused (fun ht => ?_) h
    cases ht
    exact (Move.refl _).eventsCaused rfl
  | cons again more ih => exact afterExtract_eventsCaused (fun ht => ih ht) h

/-- A host event's own events: a poll's are caused by its results, a hard I/O error has its
ConnectionLost, the rest have none (R165, R210). -/
theorem hostStep_events {e : HostEvent} {s u : State} (h : hostStep e s = .next u) :
    s.EventsCaused u ∨ ∃ r, e = .ioError r ∧ u.events = s.events ++ [.connectionLost r] := by
  have hmove := hostStep_move h
  cases hostStep_effect h with
  | nothing | opened | failedAgain | closed | received | lost =>
    exact .inl (hmove.eventsCaused rfl)
  | requested => exact .inl (hmove.eventsCaused (s.sendFrame_sameSession _ _ _).events)
  | sent => exact .inl (hmove.eventsCaused (s.sendFrame_sameSession _ _ _).events)
  | failed r => exact .inr ⟨r, rfl, rfl⟩
  | @polled _ v _ _ hread hextract =>
    have hv : s.EventsCaused v := by
      rcases hread with rfl | ⟨n, x, hread⟩
      · exact (Move.refl _).eventsCaused rfl
      · obtain ⟨⟨_, _, _, _, _, hevents, _⟩, _⟩ := State.readAppend_frame hread
        exact (State.readAppend_move hread).eventsCaused hevents
    rcases hextract with rfl | ⟨report, goOn, hextract⟩
    · exact .inl hv
    · exact .inl (hv.trans (pollExtract_eventsCaused hextract))

theorem step_events {s u : State} (h : step s = .next u) :
    s.EventsCaused u ∨
    ∃ r rest, s.pending = .host (.ioError r) :: rest ∧
      u.events = s.events ++ [.connectionLost r] := by
  have hmove := step_move h
  rcases step_cases h with ⟨_, rfl⟩ | ⟨p, _, rest, _, _, rfl⟩ | ⟨_, _, _, _, _, hexec⟩ |
    ⟨e, rest, hp, hhost⟩
  · exact .inl (hmove.eventsCaused rfl)
  · exact .inl (hmove.eventsCaused ((s.setPending rest).passBy_sameSession p).events)
  · exact .inl (hmove.eventsCaused (exec_sameSession hexec).events)
  · rcases hostStep_events hhost with hcaused | ⟨r, rfl, hevents⟩
    · exact .inl hcaused
    · exact .inr ⟨r, rest, hp, hevents⟩

/-- Settles O51: a step's events are caused by its results, or are the one ConnectionLost of a hard I/O
error. -/
theorem eventsComeFromTheirCauses : Obligations.EventsComeFromTheirCauses := by
  intro s u h
  rcases step_events h with ⟨rs, es, hr, he, hstatus, hcheck, hlost⟩ | ⟨r, rest, hp, he⟩
  · exact ⟨rs, es, hr, he, hstatus, hcheck, fun r hm => absurd hm (hlost r)⟩
  · obtain ⟨⟨rs, hr⟩, _⟩ := (step_move h).grows
    refine ⟨rs, [.connectionLost r], hr, he, by simp, by simp, fun r' hm => ?_⟩
    cases List.mem_singleton.1 hm
    exact ⟨rfl, rest, hp⟩

end Sys2Proof.Machine
end

section
/-! The bytes at and above `rx_len` are unobservable (spec R29): a relation between two runs, kept by
every operation, from the primitive ones up to a step. -/

namespace Sys2Proof.Machine

/-- Two states that differ in the buffer alone, both canonical, with the same occupied bytes. -/
def State.Alike (s t : State) : Prop :=
  ∃ m, t = { s with rxBuf := m } ∧ Mem.Wf s.rxBuf ∧ Mem.Wf m ∧
    Mem.readSpan m 0 s.rxLen = s.contents

theorem State.alike_iff {s t : State} :
    s.Alike t ↔ Mem.Wf s.rxBuf ∧ Mem.Wf t.rxBuf ∧ s.SameSeen t := by
  constructor
  · rintro ⟨m, rfl, hs, hm, hc⟩
    exact ⟨hs, hm, ⟨rfl, rfl, rfl, rfl, rfl, rfl, rfl⟩, rfl, rfl, hc⟩
  · rintro ⟨hs, ht, ⟨h1, h2, h3, h4, h5, h6, h7⟩, hr, hl, hc⟩
    refine ⟨t.rxBuf, ?_, hs, ht, by rw [← hl]; exact hc⟩
    cases s
    cases t
    dsimp only at *
    subst_vars
    rfl

/-! ### The primitive operations keep the relation -/

/-- An operation that neither reads nor writes buffer and length keeps the relation. -/
theorem State.Alike.map {s t : State} (f : State → State)
    (hf : ∀ (s : State) (m : Mem), f { s with rxBuf := m } = { f s with rxBuf := m })
    (hbuf : (f s).rxBuf = s.rxBuf) (hlen : (f s).rxLen = s.rxLen) (h : s.Alike t) :
    (f s).Alike (f t) := by
  obtain ⟨m, rfl, hs, hm, hc⟩ := h
  refine ⟨m, hf s m, by rw [hbuf]; exact hs, hm, ?_⟩
  rw [State.contents, hbuf, hlen]
  exact hc

theorem State.Alike.record {s t : State} (h : s.Alike t) (r : Result) :
    (s.record r).Alike (t.record r) := h.map (·.record r) (fun _ _ => rfl) rfl rfl

theorem State.Alike.transmit {s t : State} (h : s.Alike t) (bs : List Byte) :
    (s.transmit bs).Alike (t.transmit bs) := h.map (·.transmit bs) (fun _ _ => rfl) rfl rfl

theorem State.Alike.arrive {s t : State} (h : s.Alike t) (bs : List Byte) :
    (s.arrive bs).Alike (t.arrive bs) := h.map (·.arrive bs) (fun _ _ => rfl) rfl rfl

theorem State.Alike.dropIncoming {s t : State} (h : s.Alike t) (n : Nat) :
    (s.dropIncoming n).Alike (t.dropIncoming n) :=
  h.map (·.dropIncoming n) (fun _ _ => rfl) rfl rfl

theorem State.Alike.emit {s t : State} (h : s.Alike t) (e : Event) :
    (s.emit e).Alike (t.emit e) := h.map (·.emit e) (fun _ _ => rfl) rfl rfl

theorem State.Alike.setHost {s t : State} (h : s.Alike t) (ph : HostPhase) (fl : Bool) :
    (s.setHost ph fl).Alike (t.setHost ph fl) := h.map (·.setHost ph fl) (fun _ _ => rfl) rfl rfl

theorem State.Alike.setPending {s t : State} (h : s.Alike t) (p : List Stimulus) :
    (s.setPending p).Alike (t.setPending p) := h.map (·.setPending p) (fun _ _ => rfl) rfl rfl

theorem State.Alike.emptyBuffer {s t : State} (h : s.Alike t) :
    s.emptyBuffer.Alike t.emptyBuffer := by
  obtain ⟨m, rfl, hs, hm, _⟩ := h
  exact ⟨m, rfl, hs, hm, rfl⟩

theorem State.Alike.clearOp {s t : State} (h : s.Alike t) : s.clearOp.Alike t.clearOp :=
  h.emptyBuffer.record .ok

theorem State.Alike.appended {s t : State} (h : s.Alike t) (chunk : List Byte) :
    (s.appended chunk).Alike (t.appended chunk) := by
  obtain ⟨m, rfl, hs, hm, hc⟩ := h
  refine ⟨Mem.writeSpan m s.rxLen chunk, rfl, State.appended_wf hs chunk,
    Mem.writeSpan_wf hm _ _, ?_⟩
  rw [State.appended_contents hs, ← hc]
  exact Mem.readSpan_writeSpan hm s.rxLen chunk

theorem State.Alike.compacted {s t : State} (h : s.Alike t) (k : Nat) :
    (s.compacted k).Alike (t.compacted k) := by
  obtain ⟨m, rfl, hs, hm, hc⟩ := h
  refine ⟨_, rfl, State.compacted_wf hs k, State.compacted_wf (s := { s with rxBuf := m }) hm k, ?_⟩
  rw [State.compacted_contents hs, ← hc]
  exact State.compacted_contents (s := { s with rxBuf := m }) hm k

theorem State.Alike.sendFrame {s t : State} (h : s.Alike t) (ty sub : Byte) (p : List Byte) :
    (s.sendFrame ty sub p).Alike (t.sendFrame ty sub p) := by
  rcases Nat.lt_or_ge 255 p.length with hp | hp
  · rw [s.sendFrame_too_long ty sub hp, t.sendFrame_too_long ty sub hp]
    exact h.record _
  · rw [s.sendFrame_fits ty sub hp, t.sendFrame_fits ty sub hp]
    exact (h.record _).transmit _

theorem State.Alike.surface {s t : State} (h : s.Alike t) (report : Bool) (e a : Byte) :
    (s.surface report e a).Alike (t.surface report e a) := by
  cases report
  · exact h
  · exact h.emit _

theorem State.Alike.carry {s t : State} (h : s.Alike t) (bs : List Byte) :
    (s.carry bs).Alike (t.carry bs) := by
  rw [State.carry, State.carry]
  split
  · exact h.transmit bs
  · exact h.arrive bs

/-- What the two states agree on. -/
theorem State.Alike.agree {s t : State} (h : s.Alike t) : t.cfg = s.cfg ∧ t.rxLen = s.rxLen ∧
    t.contents = s.contents ∧ t.phase = s.phase ∧ t.incoming = s.incoming ∧
    t.pending = s.pending := by
  obtain ⟨m, rfl, _, _, hc⟩ := h
  exact ⟨rfl, rfl, hc, rfl, rfl, rfl⟩

/-! ### APPEND and EXTRACT keep it -/

/-- The same fault, or the same result and related states. -/
inductive ResultAlike : Except Fault (State × Result) → Except Fault (State × Result) → Prop
  | error (f : Fault) : ResultAlike (.error f) (.error f)
  | ok {s t : State} (h : s.Alike t) (r : Result) : ResultAlike (.ok (s, r)) (.ok (t, r))

theorem State.Alike.appendOp {s t : State} (h : s.Alike t) (chunk : List Byte) :
    ResultAlike (s.appendOp chunk) (t.appendOp chunk) := by
  obtain ⟨hcfg, hlen, _⟩ := h.agree
  rcases s.appendOp_cases chunk with ⟨hfit, he⟩ | ⟨hover, he⟩ <;> rw [he]
  · rw [State.appendOp_fits (by rw [hcfg, hlen]; exact hfit)]
    exact .ok ((h.appended chunk).record .ok) .ok
  · rw [State.appendOp_overflows (by rw [hcfg, hlen]; exact hover)]
    exact .ok (h.emptyBuffer.record _) _

theorem State.Alike.extractOp {s t : State} (h : s.Alike t) :
    ResultAlike s.extractOp t.extractOp := by
  obtain ⟨hcfg, hlen, hcontents, _⟩ := h.agree
  rcases Nat.lt_or_ge s.cfg.capacity s.rxLen with hout | hin
  · rw [State.extractOp_fault hout, State.extractOp_fault (s := t) (by rw [hcfg, hlen]; exact hout),
      hlen]
    exact .error _
  have ht := State.extractOp_eq (s := t) (by rw [hcfg, hlen]; exact hin)
  rw [hcfg, hcontents] at ht
  rcases State.extractOp_cases hin with
    ⟨ty, sub, p, c, hscan, _, _, he⟩ | ⟨i, e, a, hscan, _, he⟩ | ⟨hscan, he⟩ | ⟨hscan, he⟩ <;>
    rw [hscan] at ht <;> rw [he, ht]
  · exact .ok ((h.compacted c).record _) _
  · exact .ok ((h.compacted (i + 1)).record _) _
  · exact .ok (h.record _) _
  · exact .ok (h.record _) _

/-! ### Instructions, host events and steps keep it -/

/-- The same stop, or related next states. -/
inductive OutcomeAlike :
    Host.Outcome State Fault Refusal → Host.Outcome State Fault Refusal → Prop
  | next {s t : State} (h : s.Alike t) : OutcomeAlike (.next s) (.next t)
  | fault (f : Fault) : OutcomeAlike (.fault f) (.fault f)
  | refused (r : Refusal) : OutcomeAlike (.refused r) (.refused r)

theorem State.Alike.exec {s t : State} (h : s.Alike t) (i : Instr) :
    OutcomeAlike (exec i s) (exec i t) := by
  cases i with
  | encode m ty sub p =>
    rw [exec_encode, exec_encode]
    exact .next (h.record _)
  | scan b =>
    obtain ⟨hcfg, _⟩ := h.agree
    rw [exec_scan, exec_scan, hcfg]
    exact .next (h.record _)
  | append chunk =>
    simp only [Machine.exec, execAppend]
    have hops := h.appendOp chunk
    generalize s.appendOp chunk = x, t.appendOp chunk = y at hops ⊢
    cases hops with
    | error f => exact .fault f
    | ok h' _ => exact .next h'
  | extract =>
    simp only [Machine.exec, execExtract]
    have hops := h.extractOp
    generalize s.extractOp = x, t.extractOp = y at hops ⊢
    cases hops with
    | error f => exact .fault f
    | ok h' _ => exact .next h'
  | clear => exact .next h.clearOp
  | reserved5 _ | reserved6 _ | reserved7 _ => exact .next (h.record _)
  | frameRxGetAll _ _ _ => exact .next (h.arrive _)
  | frameTxGetAll _ _ _ | frameTxControl _ _ _ => exact .next (h.transmit _)

theorem afterExtract_alike {x y : Except Fault (State × Result)} (report : Bool)
    {next : State → Host.Outcome State Fault Refusal} (hxy : ResultAlike x y)
    (hn : ∀ {s t : State}, s.Alike t → OutcomeAlike (next s) (next t)) :
    OutcomeAlike (afterExtract x report next) (afterExtract y report next) := by
  cases hxy with
  | error f => exact .fault f
  | ok h r =>
    cases r with
    | frame _ _ _ _ => exact .next ((h.emit _).setHost _ _)
    | raised x =>
      cases x with
      | corrupt e a => exact hn (h.surface report e a)
      | encodeLengthViolation _ | overflow | opRefused _ => exact .next h
    | encoded _ | scanned _ | ok | empty | awaiting => exact .next h

theorem State.Alike.pollExtract {s t : State} (h : s.Alike t) (report : Bool) (goOn : List Bool) :
    OutcomeAlike (pollExtract report goOn s) (pollExtract report goOn t) := by
  induction goOn generalizing report s t with
  | nil => exact afterExtract_alike report h.extractOp .next
  | cons again more ih => exact afterExtract_alike report h.extractOp fun h' => ih h' again

theorem State.Alike.readAppend {s t : State} (h : s.Alike t) (n : Nat) :
    ResultAlike (s.readAppend n) (t.readAppend n) := by
  obtain ⟨hcfg, _, _, _, hin, _⟩ := h.agree
  rw [State.readAppend, State.readAppend, State.readSize, State.readSize, hcfg, hin]
  exact (h.dropIncoming _).appendOp _

theorem State.Alike.pollResponse {s t : State} (h : s.Alike t) (c : TickChoice) :
    OutcomeAlike (pollResponse c s) (pollResponse c t) := by
  rw [Machine.pollResponse, Machine.pollResponse]
  have hops := h.readAppend c.read
  generalize s.readAppend c.read = x, t.readAppend c.read = y at hops ⊢
  cases hops with
  | error f => exact .fault f
  | ok h' _ => exact h'.pollExtract _ _

theorem State.Alike.hostSendTyped {s t : State} (h : s.Alike t) (ty sub : Byte) (p : List Byte) :
    OutcomeAlike (hostSendTyped ty sub p s) (hostSendTyped ty sub p t) := by
  obtain ⟨_, _, _, hphase, _⟩ := h.agree
  rw [Machine.hostSendTyped, Machine.hostSendTyped, hphase]
  cases s.phase with
  | idle | faulted => exact .refused _
  | awaitingRequest | awaitingResponse => exact .next (h.sendFrame _ _ _)

theorem State.Alike.hostStep {s t : State} (h : s.Alike t) (e : HostEvent) :
    OutcomeAlike (hostStep e s) (hostStep e t) := by
  obtain ⟨_, _, _, hphase, _⟩ := h.agree
  cases e with
  | connect =>
    simp only [Machine.hostStep, hostConnect, hphase]
    cases s.phase with
    | idle | faulted => exact .next (h.clearOp.setHost _ _)
    | awaitingRequest | awaitingResponse => exact .refused _
  | tick c =>
    simp only [Machine.hostStep, hostTick, hphase]
    cases s.phase with
    | idle | faulted => exact .next h
    | awaitingRequest => exact .next ((h.sendFrame _ _ _).setHost _ _)
    | awaitingResponse => exact h.pollResponse c
  | ioError r =>
    simp only [Machine.hostStep, hostIoError, hphase]
    cases s.phase with
    | faulted => exact .next (h.clearOp.setHost _ _)
    | idle | awaitingRequest | awaitingResponse => exact .next ((h.clearOp.setHost _ _).emit _)
  | pollRead n =>
    simp only [Machine.hostStep, hostPollRead, hphase]
    cases s.phase with
    | idle | faulted | awaitingRequest => exact .next h
    | awaitingResponse =>
      have hops := h.readAppend n
      generalize s.readAppend n = x, t.readAppend n = y at hops ⊢
      cases hops with
      | error f => exact .fault f
      | ok h' _ => exact .next h'
  | pollExtract report =>
    simp only [Machine.hostStep, hostPollExtract, hphase]
    cases s.phase with
    | idle | faulted | awaitingRequest => exact .next h
    | awaitingResponse => exact h.pollExtract report []
  | sendTyped _ _ _ | sendFloat _ _ _ | sendByte _ _ _ => exact h.hostSendTyped _ _ _
  | sendStatusRequest =>
    simp only [Machine.hostStep, hostSendStatusRequest, hphase]
    cases s.phase with
    | idle | faulted => exact .refused _
    | awaitingRequest => exact .next ((h.sendFrame _ _ _).setHost _ _)
    | awaitingResponse => exact .next h
  | close =>
    simp only [Machine.hostStep, hostClose, hphase]
    cases s.phase with
    | idle | faulted => exact .refused _
    | awaitingRequest | awaitingResponse => exact .next (h.clearOp.setHost _ _)
  | received bs => exact .next (h.arrive bs)
  | lost n => exact .next (h.dropIncoming n)

theorem State.Alike.step {s t : State} (h : s.Alike t) : OutcomeAlike (step s) (step t) := by
  obtain ⟨_, _, _, _, _, hpending⟩ := h.agree
  rcases hp : s.pending with _ | ⟨p | e, rest⟩ <;> rw [hp] at hpending
  · rw [step_of_nothing hp, step_of_nothing hpending]
    exact .next h
  · cases hd : decode p with
    | ok i =>
      rw [step_of_decode hp hd, step_of_decode hpending hd]
      exact (h.setPending rest).exec i
    | error r =>
      rw [step_of_reject hp hd, step_of_reject hpending hd]
      cases p with
      | command _ => exact .next (h.setPending rest)
      | wire bs => exact .next ((h.setPending rest).carry bs)
  · rw [step_of_host hp, step_of_host hpending]
    exact (h.setPending rest).hostStep e

/-- Settles O13: related states step to the same stop or to related states. -/
theorem bytesAboveLengthAreUnobservable : Obligations.BytesAboveLengthAreUnobservable := by
  intro s t hs ht hseen
  have hsteps := (State.alike_iff.2 ⟨hs, ht, hseen⟩).step
  generalize step s = x, step t = y at hsteps
  cases hsteps with
  | next h =>
    refine ⟨fun s' hx => ?_, fun _ hx => (nomatch hx), fun _ hx => (nomatch hx)⟩
    cases hx
    exact ⟨_, rfl, (State.alike_iff.1 h).2.2⟩
  | fault _ => exact ⟨fun _ hx => (nomatch hx), fun _ hx => (nomatch hx), fun _ => id⟩
  | refused _ => exact ⟨fun _ hx => (nomatch hx), fun _ => id, fun _ hx => (nomatch hx)⟩

end Sys2Proof.Machine
end

section
/-! SCAN on frames whose bytes were changed (spec R75, R105, R106, R113): the changed frame is again a
frame, of other fields, and the checksum of R65 tells whether it scans as valid. -/

namespace Sys2Proof.Machine

/-! ### The checksum sees every single change -/

/-- The checksum as a sum of bytes. -/
theorem checksum_eq_add (sub n : Byte) (p : List Byte) :
    checksum sub n p = sub + n + BitVec.ofNat 8 (byteSum p) := by
  rw [← checksumStepwise_eq_checksum, checksumStepwise, foldl_add_eq_add_ofNat_byteSum]

theorem checksum_subCode_inj {sub sub' n : Byte} {p : List Byte} :
    checksum sub' n p = checksum sub n p ↔ sub' = sub := by
  rw [checksum_eq_add, checksum_eq_add, BitVec.add_left_inj, BitVec.add_left_inj]

theorem byteSum_set {p : List Byte} {k : Nat} (hk : k < p.length) (b : Byte) :
    byteSum (p.set k b) + (p.getD k 0#8).toNat = byteSum p + b.toNat := by
  induction p generalizing k with
  | nil => cases hk
  | cons x p ih =>
    cases k with
    | zero =>
      simp only [List.set_cons_zero, List.getD_cons_zero, byteSum_cons]
      omega
    | succ k =>
      have := ih (Nat.lt_of_succ_lt_succ hk)
      simp only [List.set_cons_succ, List.getD_cons_succ, byteSum_cons]
      omega

theorem checksum_set_inj {sub n b : Byte} {p : List Byte} {k : Nat} (hk : k < p.length)
    (h : checksum sub n (p.set k b) = checksum sub n p) : b = p.getD k 0#8 := by
  rw [checksum_eq_add, checksum_eq_add, BitVec.add_right_inj, ← BitVec.toNat_inj,
    BitVec.toNat_ofNat, BitVec.toNat_ofNat] at h
  have hsum := byteSum_set hk b
  have hb := b.isLt
  have hx := (p.getD k 0#8).isLt
  apply BitVec.eq_of_toNat_eq
  omega

/-! ### A changed byte of a frame is a changed field -/

theorem wireBytes_set_payload (m t sub : Byte) {p : List Byte} (c b : Byte) {k : Nat}
    (hk : k < p.length) : (wireBytes m t sub p c).set (k + 4) b =
      wireBytes m t sub (p.set k b) c := by
  rw [wireBytes, wireBytes, List.length_set]
  change m :: t :: sub :: _ :: (p ++ [c]).set k b = _
  rw [List.set_append_left k b hk]
  rfl

theorem wireBytes_set_checksum (m t sub : Byte) (p : List Byte) (c b : Byte) :
    (wireBytes m t sub p c).set (p.length + 4) b = wireBytes m t sub p b := by
  change m :: t :: sub :: _ :: (p ++ [c]).set p.length b = _
  rw [List.set_append_right p.length b le_rfl, Nat.sub_self]
  rfl

/-- The checksum byte of a wire frame is the one of R65 exactly when it has the value R65 gives. -/
theorem checksum_eq_iff (sub c : Byte) (p : List Byte) :
    checksum sub (BitVec.ofNat 8 p.length) p = c ↔
      c.toNat = (sub.toNat + p.length + byteSum p) % 256 := by
  rw [checksum_ofNat_length, ← BitVec.toNat_inj, BitVec.toNat_ofNat, Nat.mod_mod, eq_comm]

/-- A recognised frame with another checksum byte than its own is a mismatch at offset 0. -/
theorem scanBytes_wrong_checksum {recog : List (Byte × Byte)} {m t sub c : Byte} {p : List Byte}
    (hpair : (m, t) ∈ recog) (hlen : p.length ≤ 255)
    (hc : checksum sub (BitVec.ofNat 8 p.length) p ≠ c) :
    ∃ e, scanBytes recog (wireBytes m t sub p c) = .invalidFrame (.checksumMismatch 0 e c) :=
  ⟨_, by rw [scanBytes_wireBytes sub c hpair hlen, if_neg hc]⟩

theorem flipBit_ne (b : Byte) {k : Nat} (hk : k < 8) : b ^^^ (1#8 <<< k) ≠ b := by
  have hbit : ∀ k < 8, 1#8 <<< k ≠ 0#8 := by decide
  intro h
  apply hbit k hk
  rw [← BitVec.xor_right_inj b, h, BitVec.xor_zero]

/-- A byte of a frame changed at sub-code, payload or checksum leaves a frame whose checksum byte is
not its own (R113 (a), (b)). -/
theorem scanBytes_set_ne {recog : List (Byte × Byte)} {m t sub b : Byte} {p : List Byte} {j : Nat}
    (hpair : (m, t) ∈ recog) (hlen : p.length ≤ 255) (h2 : 2 ≤ j) (h3 : j ≠ 3)
    (hj : j < p.length + 5) (hb : b ≠ (buildFrame m t sub p).getD j 0#8) :
    ∃ e a, scanBytes recog ((buildFrame m t sub p).set j b) =
      .invalidFrame (.checksumMismatch 0 e a) := by
  rw [buildFrame_eq_wireBytes] at hb ⊢
  obtain rfl | ⟨k, hk, rfl⟩ | rfl :
      j = 2 ∨ (∃ k, k < p.length ∧ j = k + 4) ∨ j = p.length + 4 := by
    rcases Nat.lt_or_ge j (p.length + 4) with hbody | hlast
    · rcases Nat.lt_or_ge j 4 with hhead | hpayload
      · exact .inl (by omega)
      · exact .inr (.inl ⟨j - 4, by omega, by omega⟩)
    · exact .inr (.inr (by omega))
  · obtain ⟨e, he⟩ := scanBytes_wrong_checksum hpair hlen (mt checksum_subCode_inj.1 hb)
    exact ⟨e, _, he⟩
  · rw [Nat.add_comm, wireBytes_getD_payload m t sub _ hk] at hb
    rw [wireBytes_set_payload m t sub _ b hk]
    have hlen' : (p.set k b).length ≤ 255 := by rwa [List.length_set]
    have hne := mt (checksum_set_inj (sub := sub) (n := BitVec.ofNat 8 p.length) hk) hb
    obtain ⟨e, he⟩ := scanBytes_wrong_checksum hpair hlen' (by rwa [List.length_set])
    exact ⟨e, _, he⟩
  · rw [wireBytes_getD_checksum] at hb
    rw [wireBytes_set_checksum]
    obtain ⟨e, he⟩ := scanBytes_wrong_checksum hpair hlen hb.symm
    exact ⟨e, _, he⟩

/-! ### The statements -/

/-- Settles O24: a flipped bit changes its byte, and the checksum sees any change of one byte. -/
theorem scanDetectsFlippedBits : Obligations.ScanDetectsFlippedBits :=
  fun _ _ _ _ _ _ _ hpair hlen h2 h3 hj hk =>
    scanBytes_set_ne hpair hlen h2 h3 hj (flipBit_ne _ hk)

/-- Settles O25: a larger length byte asks for bytes that are not there. -/
theorem scanOfChangedLengthByte : Obligations.ScanOfChangedLengthByte := by
  refine ⟨fun recog m t sub n p hpair hlen hn => ?_, by decide⟩
  have hfirst : FirstCandidate recog ((buildFrame m t sub p).set 3 n) 0 := firstCandidate_zero hpair
  have hshort : (p ++ [checksum sub (BitVec.ofNat 8 p.length) p]).length < n.toNat + 1 := by
    simpa using hn
  exact (scanBytes_of_first hfirst).trans (classify_short_body 0 t sub n _ hshort)

/-- Settles O26: the frame is judged at offset 0, by its checksum byte. -/
theorem wireFrameScansByItsChecksum : Obligations.WireFrameScansByItsChecksum := by
  intro recog sub c p bs hpair hlen hbs
  cases hbs
  constructor
  · intro hc
    exact (scanBytes_wireBytes sub c hpair hlen).trans (if_pos ((checksum_eq_iff sub c p).2 hc))
  · intro hc
    exact scanBytes_wrong_checksum hpair hlen (mt (checksum_eq_iff sub c p).1 hc)

end Sys2Proof.Machine
end

section
/-! The receive assembler (spec R120 to R133, R230, R231): EXTRACT on a verdict, byte by byte, what a
ValidFrame says of the bytes, and the corner cases of APPEND and of reset. -/

namespace Sys2Proof.Machine

/-! ### EXTRACT on a verdict -/

/-- The bytes behind the removed ones move down in order (R129). -/
theorem State.byteAt_compacted_below {s : State} (h : Mem.Wf s.rxBuf) {k j : Nat}
    (hj : j < s.rxLen - k) :
    Mem.byteAt (s.compacted k).rxBuf j = Mem.byteAt s.rxBuf (j + k) := by
  have hread := Mem.byteAt_writeSpan_inside h 0 (Mem.readSpan s.rxBuf k (s.rxLen - k)) (k := j)
    (by rwa [Mem.readSpan_length])
  rw [Nat.zero_add, Mem.readSpan_getElem, Nat.add_comm] at hread
  exact hread

theorem exec_extract_of_valid {s : State} {t sub : Byte} {p : List Byte} {c : Nat}
    (h : s.rxLen ≤ s.cfg.capacity) (hscan : scanBytes s.cfg.recog s.contents = .validFrame t sub p c) :
    exec .extract s = .next ((s.compacted c).record (.frame t sub p c)) := by
  refine exec_extract_eq_next.2 ⟨.frame t sub p c, ?_⟩
  rw [State.extractOp_eq h, hscan]

theorem exec_extract_of_invalid {s : State} {i : Nat} {e a : Byte} (h : s.rxLen ≤ s.cfg.capacity)
    (hscan : scanBytes s.cfg.recog s.contents = .invalidFrame (.checksumMismatch i e a)) :
    exec .extract s = .next ((s.compacted (i + 1)).raise (.corrupt e a)) := by
  refine exec_extract_eq_next.2 ⟨.raised (.corrupt e a), ?_⟩
  rw [State.extractOp_eq h, hscan]

/-! ### What a ValidFrame says of the bytes -/

/-- A candidate judged valid is followed by the rest of the frame ENCODE builds for its fields. -/
theorem classify_valid_shape {i c : Nat} {m t ty sub : Byte} {rest p : List Byte}
    (h : classify i t rest = .validFrame ty sub p c) :
    ty = t ∧ p.length ≤ 255 ∧ c = i + p.length + 5 ∧
      ∃ behind, m :: t :: rest = buildFrame m t sub p ++ behind := by
  rcases classify_cases i t rest with hp | ⟨sub', n, body, rfl, hn, _⟩
  · rw [hp] at h
    cases h
  rw [classify_complete i t sub' n body hn] at h
  split at h
  · next hsum =>
    cases h
    have hlt : n.toNat < 256 := n.isLt
    have hlen : (body.take n.toNat).length = n.toNat := by
      rw [List.length_take]
      omega
    have hbody : body = body.take n.toNat ++ body.getD n.toNat 0#8 :: body.drop (n.toNat + 1) := by
      rw [← drop_eq_getD_cons hn, List.take_append_drop]
    refine ⟨rfl, by omega, by rw [hlen], body.drop (n.toNat + 1), ?_⟩
    rw [buildFrame, hlen, BitVec.ofNat_toNat, BitVec.setWidth_eq, hsum, List.append_assoc,
      List.append_assoc, List.singleton_append, ← hbody]
    rfl
  · cases h

/-- A ValidFrame's bytes stand in the sequence whole, behind those skipped. -/
theorem scanBytes_valid_shape {recog : List (Byte × Byte)} {b p : List Byte} {t sub : Byte} {c : Nat}
    (h : scanBytes recog b = .validFrame t sub p c) :
    ∃ m skipped behind, (m, t) ∈ recog ∧ p.length ≤ 255 ∧
      b = skipped ++ buildFrame m t sub p ++ behind ∧ c = skipped.length + p.length + 5 := by
  rcases scanFrom_cases recog 0 b with ⟨hnone, _⟩ | ⟨j, hj, _⟩
  · exact nomatch hnone.symm.trans h
  rw [scanBytes_of_first hj] at h
  obtain ⟨⟨hlen, hpair⟩, _⟩ := hj
  obtain ⟨rfl, hp, hc, behind, hbytes⟩ := classify_valid_shape (m := b.getD j 0#8) h
  rw [← drop_eq_getD_cons hlen, ← drop_eq_getD_cons (by omega)] at hbytes
  refine ⟨b.getD j 0#8, b.take j, behind, hpair, hp, ?_, ?_⟩
  · rw [List.append_assoc, ← hbytes, List.take_append_drop]
  · rw [List.length_take_of_le (by omega), hc]

/-! ### The statements -/

/-- Settles O30: the buffer is compacted by the consumed length. -/
theorem extractDeliversAValidFrame : Obligations.ExtractDeliversAValidFrame := by
  intro s t sub p c hwf hocc hscan
  obtain ⟨hfive, hc⟩ := scanBytes_valid_bounds hscan
  rw [State.contents_length] at hc
  have hexec := exec_extract_of_valid (hocc.trans (maxOcc_le s.cfg)) hscan
  exact ⟨hfive, hc, _, hexec, rfl, fun _ hj => State.byteAt_compacted_below hwf hj,
    fun _ ha => s.compacted_above ha, rfl, s.compacted_sameOutside c⟩

/-- Settles O31: the buffer is compacted by the skipped bytes and the marker. -/
theorem extractStepsPastACorruptFrame : Obligations.ExtractStepsPastACorruptFrame := by
  intro s i e a hwf hocc hscan
  have hi := scanBytes_invalid_bounds hscan
  rw [State.contents_length] at hi
  have hexec := exec_extract_of_invalid (hocc.trans (maxOcc_le s.cfg)) hscan
  exact ⟨hi, _, hexec, rfl, fun _ hj => State.byteAt_compacted_below hwf hj,
    fun _ ha => s.compacted_above ha, rfl, s.compacted_sameOutside (i + 1)⟩

/-- Settles O33: EXTRACT delivers a frame on ValidFrame only. -/
theorem deliveredFramesWereCompleteAndChecked :
    Obligations.DeliveredFramesWereCompleteAndChecked := by
  intro s u t sub p c hexec hres
  have hx := extractOp_of_exec hexec hres
  rcases State.extractOp_cases (State.rxLen_le_of_extractOp hx) with
    ⟨_, _, _, _, hscan, _, _, he⟩ | ⟨_, _, _, _, _, he⟩ | ⟨_, he⟩ | ⟨_, he⟩ <;>
    rw [hx] at he <;> cases he
  obtain ⟨m, skipped, rest, hpair, hp, hbytes, hc⟩ := scanBytes_valid_shape hscan
  rw [buildFrame_eq] at hbytes
  exact ⟨m, skipped, rest, hpair, hp, hbytes, hc⟩

/-- Settles O29: each corner is a side of the one test of APPEND. -/
theorem appendCornerCases : Obligations.AppendCornerCases := by
  refine ⟨fun s hs => exec_append_fits hs, fun s chunk more hempty hfull hmore => ?fill,
    fun s chunk hover => exec_append_overflows (by omega)⟩
  case fill =>
    have hlen : (s.appended chunk).rxLen = s.cfg.maxOcc := by
      change s.rxLen + chunk.length = s.cfg.maxOcc
      omega
    have hpos : 0 < more.length := List.length_pos_iff.2 hmore
    refine ⟨_, exec_append_fits (by omega), hlen, exec_append_overflows ?_⟩
    change s.cfg.maxOcc < (s.appended chunk).rxLen + more.length
    omega

/-- Settles O6: CLEAR and an overflowing APPEND empty the buffer and touch nothing of the table's
other rows. -/
theorem resetTable : Obligations.ResetTable :=
  ⟨by decide, fun s => ⟨_, exec_clear s, rfl, rfl, rfl, rfl⟩,
    fun _ _ hover => ⟨_, exec_append_overflows hover, rfl, rfl, rfl, rfl⟩⟩

/-- Settles O7: nothing is occupied at reset. -/
theorem extractAfterResetIsEmpty : Obligations.ExtractAfterResetIsEmpty :=
  exec_extract_of_unoccupied (s := State.reset) rfl

/-- Settles O8: no cell is listed at reset, and neither side of the session's invariant holds. -/
theorem resetMeetsInvariant : Obligations.ResetMeetsInvariant :=
  ⟨⟨by decide, State.reset_rxBuf_wf, nofun, by decide⟩, iff_of_false nofun nofun⟩

end Sys2Proof.Machine
end

section
/-! DRAIN and FEED (spec R78, R130, R131): the EXTRACTs as a relation on byte sequences, which a state
follows as long as its buffer is canonical, and which bytes appended behind do not disturb. -/

namespace Sys2Proof.Machine

/-! ### Draining a byte sequence -/

/-- What EXTRACT removes after a SCAN, with its result: a frame, or the bytes to a corrupt one's marker
(R126, R127); nothing on PartialFrame and NoFrame (R128). -/
def ScanResult.removal : ScanResult → Option (Result × Nat)
  | .validFrame t sub p c => some (.frame t sub p c, c)
  | .invalidFrame (.checksumMismatch i e a) => some (.raised (.corrupt e a), i + 1)
  | .partialFrame => none
  | .noFrame => none

/-- EXTRACT repeated on the bytes `b` until it waits: the results before that, and the bytes left. -/
inductive Drains (recog : List (Byte × Byte)) : List Byte → List Result → List Byte → Prop
  | stop {b : List Byte} (h : (scanBytes recog b).removal = none) : Drains recog b [] b
  | go {b l : List Byte} {x : Result} {xs : List Result} {k : Nat}
      (h : (scanBytes recog b).removal = some (x, k)) (rest : Drains recog (b.drop k) xs l) :
      Drains recog b (x :: xs) l

section Draining

variable {recog : List (Byte × Byte)}

/-- What a removal takes is there, is at least one byte, and its result is a delivery. -/
theorem removal_bounds {b : List Byte} {x : Result} {k : Nat}
    (h : (scanBytes recog b).removal = some (x, k)) :
    1 ≤ k ∧ k ≤ b.length ∧ x.isDelivery = true := by
  rcases hr : scanBytes recog b with _ | _ | ⟨⟨i, e, a⟩⟩ | ⟨t, sub, p, c⟩ <;> rw [hr] at h <;> cases h
  · have := scanBytes_invalid_bounds hr
    exact ⟨by omega, by omega, rfl⟩
  · have := scanBytes_valid_bounds hr
    exact ⟨by omega, by omega, rfl⟩

/-- A verdict stands whatever bytes follow (R112 (a)). -/
theorem removal_append {b : List Byte} {xk : Result × Nat} (c : List Byte)
    (h : (scanBytes recog b).removal = some xk) :
    (scanBytes recog (b ++ c)).removal = some xk := by
  rw [scanBytes_append_of_verdict c _ _, h] <;> intro hr <;> rw [hr] at h <;> cases h

/-- Draining before more bytes come changes neither the results nor what is left in the end. -/
theorem Drains.append {b c l l' : List Byte} {xs ys : List Result} (h : Drains recog b xs l)
    (h' : Drains recog (l ++ c) ys l') : Drains recog (b ++ c) (xs ++ ys) l' := by
  induction h with
  | stop _ => exact h'
  | go hx _ ih =>
    obtain ⟨_, hlen, _⟩ := removal_bounds hx
    refine .go (removal_append c hx) ?_
    rw [List.drop_append_of_le_length hlen]
    exact ih h'

theorem Drains.unique {b l l' : List Byte} {xs ys : List Result} (h : Drains recog b xs l)
    (h' : Drains recog b ys l') : xs = ys ∧ l = l' := by
  induction h generalizing ys with
  | stop hnone =>
    cases h' with
    | stop _ => exact ⟨rfl, rfl⟩
    | go hx _ => exact nomatch hnone.symm.trans hx
  | go hx _ ih =>
    cases h' with
    | stop hnone => exact nomatch hnone.symm.trans hx
    | go hy rest =>
      cases hx.symm.trans hy
      obtain ⟨rfl, rfl⟩ := ih rest
      exact ⟨rfl, rfl⟩

/-- The bytes left hold no further verdict. -/
theorem Drains.left {b l : List Byte} {xs : List Result} (h : Drains recog b xs l) :
    Drains recog l [] l := by
  induction h with
  | stop hnone => exact .stop hnone
  | go _ _ ih => exact ih

end Draining

/-! ### DRAIN follows it -/

theorem State.extractOp_of_removal {s : State} {x : Result} {k : Nat}
    (hs : s.rxLen ≤ s.cfg.capacity)
    (h : (scanBytes s.cfg.recog s.contents).removal = some (x, k)) :
    s.extractOp = .ok ((s.compacted k).record x, x) := by
  rcases State.extractOp_cases hs with
    ⟨_, _, _, _, hr, _, _, he⟩ | ⟨_, _, _, hr, _, he⟩ | ⟨hr, _⟩ | ⟨hr, _⟩ <;>
    rw [hr] at h <;> cases h <;> exact he

theorem State.extractOp_of_no_removal {s : State} (hs : s.rxLen ≤ s.cfg.capacity)
    (h : (scanBytes s.cfg.recog s.contents).removal = none) :
    ∃ r, (r = .awaiting ∨ r = .empty) ∧ s.extractOp = .ok (s.record r, r) := by
  rcases State.extractOp_cases hs with
    ⟨_, _, _, _, hr, _⟩ | ⟨_, _, _, hr, _⟩ | ⟨_, he⟩ | ⟨_, he⟩
  · rw [hr] at h
    cases h
  · rw [hr] at h
    cases h
  · exact ⟨_, .inl rfl, he⟩
  · exact ⟨_, .inr rfl, he⟩

theorem Result.not_stopsDrain {x : Result} (h : x.isDelivery = true) : x.stopsDrain = false := by
  cases x with
  | awaiting | empty => cases h
  | _ => rfl

/-- What DRAIN does from `s`: the deliveries `xs`, then `r`, which waits. The bytes are followed from a
canonical buffer only. -/
def State.Drained (s t : State) (xs : List Result) (r : Result) : Prop :=
  t.cfg = s.cfg ∧ t.results = s.results ++ xs ++ [r] ∧ (r = .awaiting ∨ r = .empty) ∧
  (∀ x ∈ xs, x.isDelivery = true) ∧ xs.length + t.rxLen ≤ s.rxLen ∧
  (Mem.Wf s.rxBuf → Mem.Wf t.rxBuf ∧ Drains s.cfg.recog s.contents xs t.contents)

/-- A waiting EXTRACT ends the drain. -/
theorem State.Drained.stop {s : State} {r : Result} (hr : r = .awaiting ∨ r = .empty)
    (h : (scanBytes s.cfg.recog s.contents).removal = none) : s.Drained (s.record r) [] r :=
  ⟨rfl, by simp, hr, nofun, by simp, fun hwf => ⟨hwf, .stop h⟩⟩

/-- A delivering EXTRACT in front of a drain. -/
theorem State.Drained.go {s t : State} {x r : Result} {xs : List Result} {k : Nat}
    (hx : (scanBytes s.cfg.recog s.contents).removal = some (x, k))
    (h : ((s.compacted k).record x).Drained t xs r) : s.Drained t (x :: xs) r := by
  obtain ⟨hk, hlen, hdelivery⟩ := removal_bounds hx
  rw [State.contents_length] at hlen
  obtain ⟨hcfg, hres, hr, hall, hcount, hdrains⟩ := h
  rw [State.record_rxLen, State.compacted_rxLen] at hcount
  refine ⟨hcfg, ?_, hr, List.forall_mem_cons.2 ⟨hdelivery, hall⟩, ?_, fun hwf => ?_⟩
  · rw [hres, State.record_results, State.compacted_results]
    simp
  · rw [List.length_cons]
    omega
  · obtain ⟨hwf', hrest⟩ := hdrains (State.compacted_wf hwf k)
    rw [State.record_contents, State.compacted_contents hwf] at hrest
    exact ⟨hwf', .go hx hrest⟩

/-- With more fuel than bytes the EXTRACTs come to an end: each delivery removes a byte (R130). -/
theorem State.extracts_drained {fuel : Nat} {s : State} (hs : s.rxLen ≤ s.cfg.capacity)
    (hfuel : s.rxLen < fuel) : ∃ t xs r, State.extracts fuel s = .ok t ∧ s.Drained t xs r := by
  induction fuel generalizing s with
  | zero => exact absurd hfuel (Nat.not_lt_zero _)
  | succ fuel ih =>
    rw [State.extracts]
    cases hscan : (scanBytes s.cfg.recog s.contents).removal with
    | none =>
      obtain ⟨r, hr, he⟩ := State.extractOp_of_no_removal hs hscan
      have hstop : r.stopsDrain = true := by
        rcases hr with rfl | rfl <;> rfl
      exact ⟨_, [], r, by simp only [he, hstop, if_true], .stop hr hscan⟩
    | some xk =>
      obtain ⟨x, k⟩ := xk
      obtain ⟨hk, hlen, hdelivery⟩ := removal_bounds hscan
      rw [State.contents_length] at hlen
      have hgo : x.stopsDrain = false := Result.not_stopsDrain hdelivery
      have hle : ((s.compacted k).record x).rxLen ≤ ((s.compacted k).record x).cfg.capacity :=
        (Nat.sub_le s.rxLen k).trans hs
      have hlt : ((s.compacted k).record x).rxLen < fuel := by
        rw [State.record_rxLen, State.compacted_rxLen]
        omega
      obtain ⟨t, xs, r, ht, hdrained⟩ := ih hle hlt
      refine ⟨t, x :: xs, r, ?_, hdrained.go hscan⟩
      simp only [State.extractOp_of_removal hs hscan, hgo, Bool.false_eq_true, if_false]
      exact ht

theorem State.drain_drained {s : State} (hs : s.rxLen ≤ s.cfg.capacity) :
    ∃ t xs r, s.drain = .ok t ∧ s.Drained t xs r :=
  State.extracts_drained hs (Nat.lt_succ_self _)

/-! ### FEED -/

/-- Of a fed chunk's results the deliveries are those of the drain. -/
theorem filter_isDelivery {xs : List Result} {r : Result} (hr : r = .awaiting ∨ r = .empty)
    (hxs : ∀ x ∈ xs, x.isDelivery = true) :
    (.ok :: (xs ++ [r])).filter Result.isDelivery = xs := by
  have hr' : [r].filter Result.isDelivery = [] := by
    rcases hr with rfl | rfl <;> rfl
  have hok : (.ok :: (xs ++ [r])).filter Result.isDelivery = (xs ++ [r]).filter Result.isDelivery :=
    List.filter_cons_of_neg (by decide)
  rw [hok, List.filter_append, hr', List.filter_eq_self.2 hxs, List.append_nil]

/-- FEED of a fitting chunk drains the occupied bytes with the chunk behind them. -/
theorem State.feed_drains {s : State} {chunk : List Byte} (hwf : Mem.Wf s.rxBuf)
    (hfit : s.rxLen + chunk.length ≤ s.cfg.maxOcc) :
    ∃ (t : State) (rs : List Result), s.feed chunk = .ok t ∧ t.cfg = s.cfg ∧ Mem.Wf t.rxBuf ∧
      t.rxLen ≤ s.rxLen + chunk.length ∧ t.results = s.results ++ rs ∧
      Drains s.cfg.recog (s.contents ++ chunk) (rs.filter Result.isDelivery) t.contents := by
  have hle : ((s.appended chunk).record .ok).rxLen ≤ ((s.appended chunk).record .ok).cfg.capacity :=
    hfit.trans (maxOcc_le s.cfg)
  obtain ⟨t, xs, r, ht, hcfg, hres, hr, hall, hcount, hdrains⟩ := State.drain_drained hle
  obtain ⟨hwf', hdrains⟩ := hdrains (State.appended_wf hwf chunk)
  rw [State.record_contents, State.appended_contents hwf] at hdrains
  refine ⟨t, .ok :: (xs ++ [r]), by simp only [State.feed, State.appendOp_fits hfit, ht], hcfg, hwf',
    (Nat.le_add_left _ _).trans hcount, ?_, by rw [filter_isDelivery hr hall]; exact hdrains⟩
  rw [hres, State.record_results]
  simp [State.appended]

/-- FEED of chunks in turn drains what FEED of the whole drains, if nothing was left to deliver. -/
theorem State.feedAll_drains {s : State} {chunks : List (List Byte)} (hwf : Mem.Wf s.rxBuf)
    (hleft : Drains s.cfg.recog s.contents [] s.contents)
    (hfit : s.rxLen + chunks.flatten.length ≤ s.cfg.maxOcc) :
    ∃ (t : State) (rs : List Result), s.feedAll chunks = .ok t ∧ t.results = s.results ++ rs ∧
      Drains s.cfg.recog (s.contents ++ chunks.flatten) (rs.filter Result.isDelivery) t.contents := by
  induction chunks generalizing s with
  | nil =>
    refine ⟨s, [], rfl, (List.append_nil _).symm, ?_⟩
    rw [List.flatten_nil, List.append_nil]
    exact hleft
  | cons chunk chunks ih =>
    rw [List.flatten_cons, List.length_append] at hfit
    obtain ⟨t, rs, ht, hcfg, hwf', hlen, hres, hdrains⟩ :=
      State.feed_drains (chunk := chunk) hwf (by omega)
    have hleft' := hdrains.left
    rw [← hcfg] at hleft'
    obtain ⟨u, rs', hu, hres', hdrains'⟩ := ih hwf' hleft' (by rw [hcfg]; omega)
    rw [hcfg] at hdrains'
    refine ⟨u, rs ++ rs', by simp only [State.feedAll, ht, hu], ?_, ?_⟩
    · rw [hres', hres, List.append_assoc]
    · rw [List.flatten_cons, ← List.append_assoc, List.filter_append]
      exact hdrains.append hdrains'

theorem State.contents_of_unoccupied {s : State} (h : s.rxLen = 0) : s.contents = [] :=
  List.length_eq_zero_iff.1 (s.contents_length.trans h)

/-! ### The statements about DRAIN and chunks -/

/-- Settles O34: DRAIN's fuel exceeds the number of occupied bytes. -/
theorem drainReachesAwaitingOrEmpty : Obligations.DrainReachesAwaitingOrEmpty := by
  intro s hs
  obtain ⟨t, xs, r, ht, _, hres, hr, hall, hcount, _⟩ :=
    State.drain_drained (hs.trans (maxOcc_le s.cfg))
  exact ⟨t, xs, r, ht, hres, hr, hall, hcount⟩

/-- Settles O37: the chunks in turn and the whole drain the same bytes, and draining is a function. -/
theorem chunkingDoesNotMatter : Obligations.ChunkingDoesNotMatter := by
  intro s chunks hwf hempty hlen
  have hcontents : s.contents = [] := State.contents_of_unoccupied hempty
  have hleft : Drains s.cfg.recog s.contents [] s.contents := by
    rw [hcontents]
    exact .stop rfl
  have hfit : s.rxLen + chunks.flatten.length ≤ s.cfg.maxOcc := by omega
  obtain ⟨t, rs, ht, hres, hdrains⟩ := State.feedAll_drains hwf hleft hfit
  obtain ⟨u, rs', hu, _, _, _, hres', hdrains'⟩ := State.feed_drains hwf hfit
  obtain ⟨hdeliveries, hbytes⟩ := hdrains.unique hdrains'
  exact ⟨t, u, ht, hu, hbytes, rs, rs', hres, hres', hdeliveries⟩

end Sys2Proof.Machine
end

section
/-! Frames fed from an empty buffer (spec R131, R155): whole, in pairs, a byte at a time, and through a
tick of the host. -/

namespace Sys2Proof.Machine

/-! ### What a state holds -/

/-- A state with parameters `cfg` whose canonical buffer has just the bytes `b` occupied. -/
def State.Holds (s : State) (cfg : Config) (b : List Byte) : Prop :=
  s.cfg = cfg ∧ Mem.Wf s.rxBuf ∧ s.rxLen ≤ cfg.capacity ∧ s.contents = b

section Holding

variable {s : State} {cfg : Config} {b : List Byte}

theorem State.holds_of_unoccupied (hwf : Mem.Wf s.rxBuf) (h : s.rxLen = 0) : s.Holds s.cfg [] :=
  ⟨rfl, hwf, by omega, State.contents_of_unoccupied h⟩

theorem State.Holds.rxLen_eq (h : s.Holds cfg b) : s.rxLen = b.length := by
  obtain ⟨_, _, _, rfl⟩ := h
  exact s.contents_length.symm

theorem State.Holds.record (h : s.Holds cfg b) (r : Result) : (s.record r).Holds cfg b := h

theorem State.Holds.appendOp (h : s.Holds cfg b) {chunk : List Byte}
    (hfit : b.length + chunk.length ≤ cfg.maxOcc) :
    ∃ v : State, s.appendOp chunk = .ok (v, .ok) ∧ v.Holds cfg (b ++ chunk) ∧
      v.results = s.results ++ [Result.ok] := by
  have hlen := h.rxLen_eq
  obtain ⟨rfl, hwf, _, rfl⟩ := h
  have hfit' : s.rxLen + chunk.length ≤ s.cfg.maxOcc := by omega
  exact ⟨_, State.appendOp_fits hfit', ⟨rfl, State.appended_wf hwf chunk,
    hfit'.trans (maxOcc_le s.cfg), State.appended_contents hwf chunk⟩, rfl⟩

/-- The bytes on which EXTRACT waits, with its result (R128). -/
def Waits (recog : List (Byte × Byte)) (b : List Byte) (r : Result) : Prop :=
  (scanBytes recog b = .partialFrame ∧ r = .awaiting) ∨ (scanBytes recog b = .noFrame ∧ r = .empty)

theorem State.Holds.extractOp_of_waits (h : s.Holds cfg b) {r : Result}
    (hw : Waits cfg.recog b r) : s.extractOp = .ok (s.record r, r) := by
  obtain ⟨rfl, _, hcap, rfl⟩ := h
  rw [State.extractOp_eq hcap]
  rcases hw with ⟨hscan, rfl⟩ | ⟨hscan, rfl⟩ <;> rw [hscan]

@[simp] theorem buildFrame_length (m t sub : Byte) (p : List Byte) :
    (buildFrame m t sub p).length = p.length + 5 := wireBytes_length m t sub p _

/-- A frame in front of the occupied bytes is what EXTRACT delivers and removes. -/
theorem State.Holds.extractOp_of_frame {m t sub : Byte} {p : List Byte}
    (h : s.Holds cfg (buildFrame m t sub p ++ b)) (hpair : (m, t) ∈ cfg.recog)
    (hp : p.length ≤ 255) :
    ∃ u : State, s.extractOp = .ok (u, .frame t sub p (p.length + 5)) ∧ u.Holds cfg b ∧
      u.results = s.results ++ [Result.frame t sub p (p.length + 5)] := by
  obtain ⟨rfl, hwf, hcap, hc⟩ := h
  have hscan : (scanBytes s.cfg.recog s.contents).removal =
      some (.frame t sub p (p.length + 5), p.length + 5) := by
    rw [hc]
    apply removal_append
    rw [scanBytes_buildFrame sub hpair hp]
    rfl
  refine ⟨_, State.extractOp_of_removal hcap hscan, State.Holds.record ⟨rfl,
    State.compacted_wf hwf _, (Nat.sub_le s.rxLen _).trans hcap, ?_⟩ _, rfl⟩
  rw [State.compacted_contents hwf, hc, List.drop_left' (buildFrame_length m t sub p)]

/-- APPEND of one frame to an empty buffer, then EXTRACT. -/
theorem State.Holds.append_extract_frame {m t sub : Byte} {p : List Byte} (h : s.Holds cfg [])
    (hpair : (m, t) ∈ cfg.recog) (hp : p.length ≤ 255) (hfit : p.length + 5 ≤ cfg.maxOcc) :
    ∃ v w : State, s.appendOp (buildFrame m t sub p) = .ok (v, .ok) ∧
      v.extractOp = .ok (w, .frame t sub p (p.length + 5)) ∧ w.rxLen = 0 ∧
      w.results = s.results ++ [Result.ok, .frame t sub p (p.length + 5)] := by
  obtain ⟨v, hv, hvb, hvr⟩ := h.appendOp (chunk := buildFrame m t sub p) (by simpa using hfit)
  rw [List.nil_append, ← List.append_nil (buildFrame m t sub p)] at hvb
  obtain ⟨w, hw, hwb, hwr⟩ := hvb.extractOp_of_frame hpair hp
  exact ⟨v, w, hv, hw, hwb.rxLen_eq, by rw [hwr, hvr, List.append_assoc]; rfl⟩

/-! ### A byte at a time -/

/-- From its second byte to its last but one, what came of a frame is partial (R103, R104). -/
theorem waits_take_buildFrame {recog : List (Byte × Byte)} {m t : Byte} (sub : Byte)
    {p : List Byte} (hpair : (m, t) ∈ recog) (hp : p.length ≤ 255) {k : Nat} (h2 : 2 ≤ k)
    (hk : k < p.length + 5) : Waits recog ((buildFrame m t sub p).take k) .awaiting := by
  obtain ⟨k, rfl⟩ := Nat.exists_eq_add_of_le' h2
  have hfirst : FirstCandidate recog ((buildFrame m t sub p).take (k + 2)) 0 :=
    firstCandidate_zero hpair
  refine .inl ⟨?_, rfl⟩
  rcases Nat.lt_or_ge k 2 with hshort | hhead
  · apply scanBytes_short_header hfirst
    rw [List.length_take]
    omega
  · obtain ⟨k, rfl⟩ := Nat.exists_eq_add_of_le' hhead
    apply scanBytes_short_body hfirst
    · rw [List.length_take, buildFrame_length]
      omega
    · change _ < 0 + (BitVec.ofNat 8 p.length).toNat + 5
      rw [List.length_take, BitVec.toNat_ofNat]
      omega

/-- Feeding the first `k` bytes of `f` one at a time leads from `s` to `u` with the results `rs`. -/
def State.Fed (s : State) (f : List Byte) (k : Nat) (u : State) (rs : List Result) : Prop :=
  u.Holds s.cfg (f.take k) ∧ u.results = s.results ++ rs ∧
  s.feedBytewise f = u.feedBytewise (f.drop k)

/-- One more byte is appended, and what its EXTRACT answers is fed on with. -/
theorem State.Fed.byte {f : List Byte} {k : Nat} {u : State} {rs : List Result}
    (h : s.Fed f k u rs) (hk : k < f.length) (hfit : f.length ≤ s.cfg.maxOcc) :
    ∃ v : State, v.Holds s.cfg (f.take (k + 1)) ∧ v.results = s.results ++ rs ++ [Result.ok] ∧
      ∀ (w : State) (r : Result), v.extractOp = .ok (w, r) →
        s.feedBytewise f = w.feedBytewise (f.drop (k + 1)) := by
  obtain ⟨hholds, hres, hfeed⟩ := h
  obtain ⟨v, hv, hvb, hvr⟩ := hholds.appendOp (chunk := [f[k]])
    (by rw [List.length_take, List.length_singleton]; omega)
  rw [List.take_append_getElem hk] at hvb
  refine ⟨v, hvb, by rw [hvr, hres], fun w r hw => ?_⟩
  rw [hfeed, List.drop_eq_getElem_cons hk, State.feedBytewise]
  simp only [hv, hw]

/-- A byte after which EXTRACT waits. -/
theorem State.Fed.waits {f : List Byte} {k : Nat} {u : State} {rs : List Result} {r : Result}
    (h : s.Fed f k u rs) (hk : k < f.length) (hfit : f.length ≤ s.cfg.maxOcc)
    (hw : Waits s.cfg.recog (f.take (k + 1)) r) : ∃ w, s.Fed f (k + 1) w (rs ++ [Result.ok, r]) := by
  obtain ⟨v, hvb, hvr, hnext⟩ := h.byte hk hfit
  refine ⟨v.record r, hvb.record r, ?_, hnext _ r (hvb.extractOp_of_waits hw)⟩
  rw [State.record_results, hvr]
  simp

/-- The frame up to its last byte: Empty after the first byte, Awaiting after each further one. -/
theorem State.Holds.fed_buildFrame {m t : Byte} (sub : Byte) {p : List Byte} (h : s.Holds s.cfg [])
    (hpair : (m, t) ∈ s.cfg.recog) (hp : p.length ≤ 255) (hfit : p.length + 5 ≤ s.cfg.maxOcc)
    {j : Nat} (hj : j + 1 < p.length + 5) :
    ∃ u, s.Fed (buildFrame m t sub p) (j + 1) u
      ([Result.ok, .empty] ++ (List.replicate j [Result.ok, Result.awaiting]).flatten) := by
  have hlen := buildFrame_length m t sub p
  induction j with
  | zero =>
    have hstart : s.Fed (buildFrame m t sub p) 0 s [] := ⟨h, (List.append_nil _).symm, rfl⟩
    exact hstart.waits (by omega) (by omega) (.inr ⟨rfl, rfl⟩)
  | succ j ih =>
    obtain ⟨u, hu⟩ := ih (by omega)
    obtain ⟨w, hw⟩ := hu.waits (by omega) (by omega)
      (waits_take_buildFrame sub hpair hp (by omega) hj)
    refine ⟨w, ?_⟩
    rw [List.replicate_succ', List.flatten_append, List.flatten_singleton, ← List.append_assoc]
    exact hw

/-- The last byte of the frame brings it whole. -/
theorem State.Holds.feedBytewise_buildFrame {m t : Byte} (sub : Byte) {p : List Byte}
    (h : s.Holds s.cfg []) (hpair : (m, t) ∈ s.cfg.recog) (hp : p.length ≤ 255)
    (hfit : p.length + 5 ≤ s.cfg.maxOcc) :
    ∃ u : State, s.feedBytewise (buildFrame m t sub p) = .ok u ∧ u.rxLen = 0 ∧
      u.results = s.results ++ ([Result.ok, .empty] ++
        (List.replicate (p.length + 3) [Result.ok, Result.awaiting]).flatten ++
        [Result.ok, .frame t sub p (p.length + 5)]) := by
  have hlen := buildFrame_length m t sub p
  obtain ⟨u, hu⟩ := h.fed_buildFrame sub hpair hp hfit (j := p.length + 3) (by omega)
  obtain ⟨v, hvb, hvr, hnext⟩ := hu.byte (by omega) (by omega)
  rw [List.take_of_length_le (by omega), ← List.append_nil (buildFrame m t sub p)] at hvb
  obtain ⟨w, hw, hwb, hwr⟩ := hvb.extractOp_of_frame hpair hp
  refine ⟨w, ?_, hwb.rxLen_eq, ?_⟩
  · rw [hnext w _ hw, List.drop_of_length_le (by omega)]
    rfl
  · rw [hwr, hvr]
    simp only [List.append_assoc]
    rfl

/-! ### A frame through a tick -/

/-- A poll whose EXTRACT answers a Frame delivers it and is over (R155, R157). -/
theorem pollExtract_of_frame {t : State} {ty sub : Byte} {p : List Byte} {c : Nat}
    (h : s.extractOp = .ok (t, .frame ty sub p c)) (report : Bool) (goOn : List Bool) :
    pollExtract report goOn s = .next (t.deliver sub p) := by
  cases goOn <;> rw [pollExtract, h] <;> rfl

/-- A read that takes every waiting byte, and its APPEND. -/
theorem State.Holds.readAppend_all (h : s.Holds cfg b) {n : Nat} (hn : s.incoming.length ≤ n)
    (hfit : b.length + s.incoming.length ≤ cfg.maxOcc) :
    ∃ v : State, s.readAppend n = .ok (v, .ok) ∧ v.Holds cfg (b ++ s.incoming) ∧ v.incoming = [] := by
  have hsize : s.incoming.length ≤ s.readSize n := by
    obtain ⟨hcfg, _⟩ := h
    rw [State.readSize, hcfg]
    omega
  have hdropped : (s.dropIncoming (s.readSize n)).Holds cfg b := h
  obtain ⟨v, hv, hvb, _⟩ := hdropped.appendOp hfit
  have hread : s.readAppend n = .ok (v, .ok) := by
    rw [State.readAppend, List.take_of_length_le hsize, hv]
  obtain ⟨⟨_, _, _, hin, _⟩, _⟩ := State.readAppend_frame hread
  rw [State.dropIncoming_incoming, List.drop_of_length_le hsize] at hin
  exact ⟨v, hread, hvb, hin⟩

/-- A tick with a frame alone on the read side and an empty buffer (R155). -/
theorem State.Holds.tick_frame {m t sub : Byte} {p : List Byte} {choice : TickChoice}
    (h : s.Holds cfg []) (hs : s.phase = .awaitingResponse)
    (hin : s.incoming = buildFrame m t sub p) (hpair : (m, t) ∈ cfg.recog) (hp : p.length ≤ 255)
    (hfit : p.length + 5 ≤ cfg.maxOcc) (hread : p.length + 5 ≤ choice.read) :
    ∃ u : State, hostStep (.tick choice) s = .next (u.deliver sub p) ∧ u.rxLen = 0 ∧ u.incoming = [] ∧
      u.events = s.events ∧
      u.results = s.results ++ [Result.ok, .frame t sub p (p.length + 5)] := by
  have hlen : s.incoming.length = p.length + 5 := by rw [hin, buildFrame_length]
  obtain ⟨v, hv, hvb, hvin⟩ :=
    h.readAppend_all (hlen.trans_le hread) (by simpa [hlen] using hfit)
  rw [hin, List.nil_append, ← List.append_nil (buildFrame m t sub p)] at hvb
  obtain ⟨w, hw, hwb, hwr⟩ := hvb.extractOp_of_frame hpair hp
  obtain ⟨⟨_, _, _, _, _, hevents, _⟩, hvr⟩ := State.readAppend_frame hv
  obtain ⟨⟨_, _, _, hin', _, hevents', _⟩, _⟩ := State.extractOp_frame hw
  refine ⟨w, ?_, hwb.rxLen_eq, hin'.trans hvin, hevents'.trans hevents, ?_⟩
  · rw [hostStep_tick_awaitingResponse hs, pollResponse, hv]
    exact pollExtract_of_frame hw choice.report choice.goOn
  · rw [hwr, hvr, List.append_assoc]
    rfl

end Holding

/-! ### The statements -/

/-- Settles O35: every byte but the last leaves the frame partial; at once or not, the buffer then
holds the frame alone. -/
theorem bytewiseFeedDeliversTheFrame : Obligations.BytewiseFeedDeliversTheFrame := by
  intro s m t sub p hwf hempty hpair hp hfit
  have hholds := State.holds_of_unoccupied hwf hempty
  obtain ⟨v, w, hv, hw, hlen, hres⟩ := hholds.append_extract_frame (sub := sub) hpair hp hfit
  exact ⟨hholds.feedBytewise_buildFrame sub hpair hp hfit, v, w,
    exec_append_eq_next.2 ⟨_, hv⟩, exec_extract_eq_next.2 ⟨_, hw⟩, hlen, hres⟩

/-- Settles O36: EXTRACT removes the frame in front, twice, and then nothing is occupied. -/
theorem twoFramesGiveTwoResults : Obligations.TwoFramesGiveTwoResults := by
  intro s m t sub m' t' sub' p p' hwf hempty hpair hpair' hp hp' hfit
  obtain ⟨a, ha, hab, har⟩ := (State.holds_of_unoccupied hwf hempty).appendOp
    (chunk := buildFrame m t sub p ++ buildFrame m' t' sub' p') (by simpa using hfit)
  obtain ⟨b, hb, hbb, hbr⟩ := State.Holds.extractOp_of_frame hab hpair hp
  rw [← List.append_nil (buildFrame m' t' sub' p')] at hbb
  obtain ⟨c, hc, hcb, hcr⟩ := hbb.extractOp_of_frame hpair' hp'
  refine ⟨a, b, c, _, exec_append_eq_next.2 ⟨_, ha⟩, exec_extract_eq_next.2 ⟨_, hb⟩,
    exec_extract_eq_next.2 ⟨_, hc⟩, exec_extract_of_unoccupied hcb.rxLen_eq, hcb.rxLen_eq, ?_⟩
  rw [State.record_results, hcr, hbr, har]
  simp

/-- Settles O53: the frame with the right checksum byte is ENCODE's, it waits whole on the read side,
and one tick takes and delivers it. -/
theorem responseReachesTheConsumer : Obligations.ResponseReachesTheConsumer := by
  intro s sub c p choice hwf hs hempty hin hpair hp hfit hread hc
  have hframe : wireBytes 0xF0#8 0xA1#8 sub p c = buildFrame 0xF0#8 0xA1#8 sub p := by
    rw [buildFrame_eq_wireBytes, (checksum_eq_iff sub c p).2 hc]
  have hholds : (s.arrive (wireBytes 0xF0#8 0xA1#8 sub p c)).Holds s.cfg [] :=
    State.holds_of_unoccupied hwf hempty
  have harrived : (s.arrive (wireBytes 0xF0#8 0xA1#8 sub p c)).incoming =
      buildFrame 0xF0#8 0xA1#8 sub p := by
    rw [State.arrive_incoming, hin, List.nil_append, hframe]
  obtain ⟨u, htick, hlen, hin', hevents, hres⟩ :=
    hholds.tick_frame hs harrived hpair hp hfit hread
  exact ⟨_, _, rfl, htick, hlen, hin', rfl, rfl, 
    congrArg (· ++ [Event.statusUpdated (decodeStatus sub p)]) hevents, hres⟩

end Sys2Proof.Machine
end

section
/-! The payload decoder (spec R181 to R185): floats and text fields read at their offsets, the sub-code
255 layout, and the protection-state code. -/

namespace Sys2Proof.Machine

/-! ### Floats -/

/-- Bytes put side by side are digits base 256. -/
theorem toNat_append_byte {n : Nat} (x : BitVec n) (y : Byte) :
    (x ++ y).toNat = 256 * x.toNat + y.toNat := by
  rw [BitVec.toNat_append, ← Nat.shiftLeft_add_eq_or_of_lt y.isLt, Nat.shiftLeft_eq, Nat.mul_comm]

/-- A float is read least significant byte first (R181). -/
theorem floatAt_payloadFloat (p : List Byte) (k : Nat) : FloatAt p k (payloadFloat p k) := by
  simp only [FloatAt, payloadFloat, toNat_append_byte, payloadByte]
  omega

/-! ### The layouts -/

theorem decodeStatus_allData {p : List Byte} (h : 119 ≤ p.length) :
    decodeStatus 255#8 p = .allData (allDataStatus p) := by
  have hcode : 255#8 = Config.allDataSub := rfl
  have hlong : ¬ p.length < allDataLength := Nat.not_lt.2 h
  rw [decodeStatus, if_pos hcode, if_neg hlong]

theorem allDataStatus_groups (p : List Byte) {k : Nat} (hk : k < 6) :
    (allDataStatus p).groups[k]? = some (payloadFloat p (28 + 8 * k), payloadFloat p (32 + 8 * k)) := by
  simp [allDataStatus, hk]

/-- Settles O54: the layout reads each field at the offset stated, and in the order stated where the
statement leaves the order open. -/
theorem decoderReadsTheStatedFields : Obligations.DecoderReadsTheStatedFields := by
  constructor
  · intro p hp
    have hfloat := floatAt_payloadFloat p
    refine ⟨allDataStatus p, decodeStatus_allData hp, hfloat 0, hfloat 4, hfloat 12, hfloat 24,
      hfloat 111, hfloat 115, rfl, fun k hk => ?groups, ?thresholds, ?settings, rfl, rfl⟩
    case groups =>
      exact ⟨_, _, allDataStatus_groups p hk, .inl ⟨hfloat (28 + 8 * k), hfloat (32 + 8 * k)⟩⟩
    case thresholds =>
      exact ⟨[76, 80, 84, 88, 92], .refl _, .cons (hfloat 76) (.cons (hfloat 80)
        (.cons (hfloat 84) (.cons (hfloat 88) (.cons (hfloat 92) .nil))))⟩
    case settings => exact ⟨[96, 97, 98], .refl _, rfl⟩
  · intro b0 b1 b2 b3
    exact ⟨_, rfl, floatAt_payloadFloat [b0, b1, b2, b3] 0⟩

/-- Settles O55: the decoder's cases are the codes 0 to 6, and all others. -/
theorem protectionStateCodes : Obligations.ProtectionStateCodes := by
  intro code
  rw [protectionOf, protectionOf]
  refine ⟨rfl, ?_⟩
  generalize code.toNat = n
  match n with
  | 0 | 1 | 2 | 3 | 4 | 5 | 6 => exact ⟨fun h => absurd h (by decide), fun _ _ => nofun⟩
  | n + 7 => exact ⟨fun _ => rfl, fun h => absurd h (by omega)⟩

/-! ### Text fields -/

/-- Characters without a null are what stands before the nulls. -/
theorem takeWhile_ne_zero_padded {chars : List Byte} (n : Nat) (h : ∀ c ∈ chars, c ≠ 0#8) :
    (chars ++ List.replicate n 0#8).takeWhile (· != 0#8) = chars := by
  have hpad : (List.replicate n 0#8).takeWhile (· != 0#8) = [] := by
    cases n <;> rfl
  rw [List.takeWhile_append_of_pos (fun c hc => bne_iff_ne.2 (h c hc)), hpad, List.append_nil]

/-- Settles O60: the field is cut out whole, and its characters end at its first null. -/
theorem textFieldsReadToTheirPadding : Obligations.TextFieldsReadToTheirPadding := by
  intro before chars behind width hwidth hchars hnull
  have hfield : (chars ++ List.replicate (width - chars.length) 0#8).length = width := by
    rw [List.length_append, List.length_replicate]
    omega
  rw [payloadText, Nat.min_eq_left hwidth, List.append_assoc, List.drop_left, List.take_left' hfield,
    takeWhile_ne_zero_padded _ hnull]

end Sys2Proof.Machine
end
